-- ==== Sys2Proof/Word.lean ====
section
/-! DEFINITION. The machine's value type (spec/00_scope.md R3, R9, R11): one 64-bit unsigned Word for opcodes, operands,
addresses, register contents and data, and the 8-bit byte of the output sink and of the image format.
Addition and subtraction on `BitVec 64` are modulo 2^64, as R11 asks. -/

namespace Sys2Proof

/-- R3: "the fundamental 64-bit unsigned value type for opcodes, operands, addresses, and data". -/
abbrev Word := BitVec 64

/-- One byte of the output stream (R30) or of a binary image (R68). -/
abbrev Byte := BitVec 8

end Sys2Proof
end

