-- ==== Sys2Proof/Syntax.lean ====
section
/-! DEFINITION. The instruction set: the fourteen mnemonics (spec/00_scope.md R2), their operand counts (spec/30_encoding.md
R48) and spellings, and the instructions with their operand Words (R47, R49). One constructor of `Instr` for each row of
spec/opcode_table.json, in the table's order. -/

namespace Sys2Proof

/-- The closed enumeration of operations (R2, R51). -/
inductive Mnemonic
  | halt | noop | inca | deca | seta | seti | inci | cmpi | jump | jmpz | setatom | jsr | rts | bios
deriving DecidableEq, Repr

/-- An instruction: an opcode together with its operand Words, each the whole 64-bit Word unchanged (R49). -/
inductive Instr
  /-- HALT (R80), format F0 -/
  | halt
  /-- NOOP (R81), format F0 -/
  | noop
  /-- INCA (R82), format F0 -/
  | inca
  /-- DECA (R83), format F0 -/
  | deca
  /-- SETA (R84), format F1: operand1 is the immediate value for A -/
  | seta (imm : Word)
  /-- SETI (R86), format F1: operand1 is the immediate value for I -/
  | seti (imm : Word)
  /-- INCI (R87), format F0 -/
  | inci
  /-- CMPI (R88), format F1: operand1 is the immediate value compared with I -/
  | cmpi (imm : Word)
  /-- JUMP (R89), format F1: operand1 is the absolute target address -/
  | jump (target : Word)
  /-- JMPZ (R90), format F1: operand1 is the absolute target address, taken when FlagZero is false -/
  | jmpz (target : Word)
  /-- SETATOM (R85), format F0: the address is register I -/
  | setatom
  /-- JSR (R91), format F1: operand1 is the absolute subroutine address -/
  | jsr (target : Word)
  /-- RTS (R92), format F0 -/
  | rts
  /-- BIOS (R95), format F2: operand1 is the I/O direction code, operand2 the target code -/
  | bios (direction : Word) (target : Word)
deriving DecidableEq, Repr

/-- The fourteen mnemonics in the order of the source's table (R2, R50). -/
def Mnemonic.all : List Mnemonic :=
  [.halt, .noop, .inca, .deca, .seta, .seti, .inci, .cmpi, .jump, .jmpz, .setatom, .jsr, .rts, .bios]

/-- The InstructionTable's `operand_count` (R48). -/
def Mnemonic.operandCount : Mnemonic → Nat
  | .halt => 0
  | .noop => 0
  | .inca => 0
  | .deca => 0
  | .seta => 1
  | .seti => 1
  | .inci => 0
  | .cmpi => 1
  | .jump => 1
  | .jmpz => 1
  | .setatom => 0
  | .jsr => 1
  | .rts => 0
  | .bios => 2

/-- The operation an instruction performs. -/
def Instr.mnemonic : Instr → Mnemonic
  | .halt => .halt
  | .noop => .noop
  | .inca => .inca
  | .deca => .deca
  | .seta _ => .seta
  | .seti _ => .seti
  | .inci => .inci
  | .cmpi _ => .cmpi
  | .jump _ => .jump
  | .jmpz _ => .jmpz
  | .setatom => .setatom
  | .jsr _ => .jsr
  | .rts => .rts
  | .bios _ _ => .bios

end Sys2Proof
end

