-- ==== Sys2Proof/Config.lean ====
section
/-! DEFINITION. The implementation parameters of spec/00_scope.md R9, as one argument of the parametric machine (`execWith`,
`stepWith`), and the one free value of the spec, the underflow report.
R30: the InstructionTable and the OPCODE map are immutable configuration, not state. -/

namespace Sys2Proof

/-- UNKNOWN_OPCODE_POLICY (R9, R53, R76): what an opcode word outside the image of OPCODE does. -/
inductive UnknownOpcodePolicy
  /-- raise `Fault(UnknownOpcode, …)`, the default -/
  | fault
  /-- the source's behaviour: P advances by 1 and nothing else changes -/
  | noop
deriving DecidableEq, Repr

/-- RTS_UNDERFLOW_POLICY (R9, R93): what RTS with an empty stack does. -/
inductive RtsUnderflowPolicy
  /-- raise `Fault(StackUnderflow, …)`, the default -/
  | fault
  /-- emit the report, P stays p + 1 -/
  | continueKeepP
  /-- emit the report, P becomes 0 -/
  | continueZeroP
deriving DecidableEq, Repr

/-- The six BIOS code names (R96): three directions and three targets. -/
inductive IoCode
  | ioNone | ioWrite | ioRead | targetNone | targetStdout | targetStdin
deriving DecidableEq, Repr

/-- The parameters of one built machine (R9). A claim about every machine quantifies over `Config`. -/
structure Config where
  /-- OPCODE : Mnemonic → Word (R50); `Config.wf` asks that it is injective -/
  opcode : Mnemonic → Word
  /-- IO_NONE, IO_WRITE, IO_READ, TARGET_NONE, TARGET_STDOUT, TARGET_STDIN (R96) -/
  ioCode : IoCode → Word
  /-- UNKNOWN_OPCODE_POLICY (R76) -/
  unknownOpcodePolicy : UnknownOpcodePolicy
  /-- RTS_UNDERFLOW_POLICY (R93) -/
  rtsUnderflowPolicy : RtsUnderflowPolicy
  /-- STACK_DEPTH (R22): `none` is the source's unbounded stack, `some N` a physical build with N entries -/
  stackDepth : Option Nat
  /-- DEBUG_TRACE (R108): the model has no trace, so `Config.wf` refuses `true` -/
  debugTrace : Bool

/-- The default OPCODE of R50: the order of the source's mnemonic table, from 0.
DESIGN CHOICE of the spec (D1), log entry 1: unsafe where the original uses other numbers. -/
def Config.defaultOpcode : Mnemonic → Word
  | .halt => 0x0000000000000000
  | .noop => 0x0000000000000001
  | .inca => 0x0000000000000002
  | .deca => 0x0000000000000003
  | .seta => 0x0000000000000004
  | .seti => 0x0000000000000005
  | .inci => 0x0000000000000006
  | .cmpi => 0x0000000000000007
  | .jump => 0x0000000000000008
  | .jmpz => 0x0000000000000009
  | .setatom => 0x000000000000000A
  | .jsr => 0x000000000000000B
  | .rts => 0x000000000000000C
  | .bios => 0x000000000000000D

/-- The default BIOS codes of R96: 0, 1, 2 in the listed order within each group.
DESIGN CHOICE of the spec (D2), log entry 2: unsafe where the original uses other numbers. -/
def Config.defaultIoCode : IoCode → Word
  | .ioNone => 0
  | .ioWrite => 1
  | .ioRead => 2
  | .targetNone => 0
  | .targetStdout => 1
  | .targetStdin => 2

/-- The spec's default machine (R9's value column): the machine behind `exec`, `step` and `core`. -/
def Config.default : Config where
  opcode := Config.defaultOpcode
  ioCode := Config.defaultIoCode
  unknownOpcodePolicy := .fault
  rtsUnderflowPolicy := .fault
  stackDepth := none
  debugTrace := false

/-- UNDERFLOW_REPORT (R93): "a draw: any finite byte sequence". A FREE VALUE: it has no body, so a claim that reads it
holds for every byte sequence. The argument is the number of reports drawn before (log entry 5). -/
opaque Config.underflowReport : Nat → List Byte

/-- The assembler's open parameters (R9, R60, R62; log entry 15). The source names no default for any of them, so there is
none here: the assembler takes them as an argument. -/
structure AsmConfig where
  /-- DATA_MARKER: the literal-marker character (R62) -/
  dataMarker : Char
  /-- IO_SYMBOLS: the assembler's spellings of the BIOS codes (R60) -/
  ioSymbols : List (List Char × IoCode)
  /-- what separates tokens: "whitespace" (R54), not defined further by the source -/
  isSpace : Char → Bool
  /-- what "begins with a letter" means (R61, R62), not defined further by the source (91_not_in_source.md N12) -/
  isLetter : Char → Bool

end Sys2Proof
end

