-- ==== Sys2Proof/WellFormed.lean ====
section
/-! DEFINITION. Well-formedness. An INSTRUCTION needs no check: "every operand Word is legal for every instruction"
(spec/30_encoding.md R53) and the operand types hold nothing but Words, so every term of `Instr` is well formed.
What can be ill formed is the CONFIGURATION: OPCODE must be injective (R9, R50), the BIOS codes must differ within each
group (spec/45_device_io.md R96), and the debug trace must be off (spec/60_exceptions.md R108). -/

namespace Sys2Proof

/-- R50: OPCODE "must be injective": no two of the fourteen mnemonics share an opcode word. -/
def Config.opcodesDistinct (cfg : Config) : Bool :=
  decide (Mnemonic.all.map cfg.opcode).Nodup

/-- R96: within the direction codes "the values must differ". -/
def Config.directionsDistinct (cfg : Config) : Bool :=
  decide [cfg.ioCode .ioNone, cfg.ioCode .ioWrite, cfg.ioCode .ioRead].Nodup

/-- R96: within the target codes "the values must differ". -/
def Config.targetsDistinct (cfg : Config) : Bool :=
  decide [cfg.ioCode .targetNone, cfg.ioCode .targetStdout, cfg.ioCode .targetStdin].Nodup

/-- A machine the spec describes: R9's constraints on the parameters, and R108's `DEBUG_TRACE = false`. -/
def Config.wf (cfg : Config) : Bool :=
  cfg.opcodesDistinct && cfg.directionsDistinct && cfg.targetsDistinct && !cfg.debugTrace

/-- The ten decimal digits (R62). -/
def decimalDigits : List Char := ['0', '1', '2', '3', '4', '5', '6', '7', '8', '9']

/-- The assembler's parameters leave decimal literals alone: no digit is a letter, white space or the data marker, and no
I/O symbol begins with a digit. R55 lists decimal literals, label references and I/O symbols as different operand tokens;
the source does not state this, so it is a premise of claims about assembly text and not of the assembler (log entry 15). -/
def AsmConfig.wf (asm : AsmConfig) : Bool :=
  decimalDigits.all fun d =>
    !asm.isLetter d && !asm.isSpace d && d != asm.dataMarker && asm.ioSymbols.all fun e => e.1.head? != some d

end Sys2Proof
end

