-- ==== Sys2Proof/Decode.lean ====
section
/-! DEFINITION. The decoder and, after it, the encoder (spec/30_encoding.md R47 to R53). Both work on whole Words: no Word
has sub-fields (R47), and memory and fetch have no byte order (spec/20_memory.md R38). -/

namespace Sys2Proof

/-- Why a Word sequence is no instruction. The core itself can meet only `unknownOpcode`: it fetches as many operand Words
as the opcode asks for (R52). -/
inductive DecodeError
  /-- there is no opcode Word -/
  | noOpcodeWord
  /-- the opcode Word is outside the image of OPCODE (R53) -/
  | unknownOpcode (word : Word)
  /-- fewer operand Words follow than the mnemonic's operand count (R48) -/
  | missingOperand (mnemonic : Mnemonic)
deriving DecidableEq, Repr

/-- R51: the mnemonic `m` with `OPCODE(m) == opcode`, all 64 bits compared; `none` for an unknown opcode (R53). -/
def Config.mnemonicOf (cfg : Config) (opcode : Word) : Option Mnemonic :=
  Mnemonic.all.find? fun m => cfg.opcode m == opcode

/-- Format F1: one operand Word (R47). -/
def takeOne (make : Word → Instr) : List Word → Option (Instr × List Word)
  | w1 :: rest => some (make w1, rest)
  | [] => none

/-- Format F2: two operand Words (R47). -/
def takeTwo (make : Word → Word → Instr) : List Word → Option (Instr × List Word)
  | w1 :: w2 :: rest => some (make w1 w2, rest)
  | [_] => none
  | [] => none

/-- The instruction of a mnemonic from the Words after its opcode, with the Words left over (R48, R49). -/
def Instr.ofOperands (m : Mnemonic) (ws : List Word) : Option (Instr × List Word) :=
  match m with
  | .halt => some (.halt, ws)
  | .noop => some (.noop, ws)
  | .inca => some (.inca, ws)
  | .deca => some (.deca, ws)
  | .seta => takeOne .seta ws
  | .seti => takeOne .seti ws
  | .inci => some (.inci, ws)
  | .cmpi => takeOne .cmpi ws
  | .jump => takeOne .jump ws
  | .jmpz => takeOne .jmpz ws
  | .setatom => some (.setatom, ws)
  | .jsr => takeOne .jsr ws
  | .rts => some (.rts, ws)
  | .bios => takeTwo .bios ws

/-- The decoder: the first instruction of a Word sequence and the Words after it, or the named reason there is none. -/
def decode (cfg : Config) : List Word → Except DecodeError (Instr × List Word)
  | [] => .error .noOpcodeWord
  | opcode :: ws =>
    match cfg.mnemonicOf opcode with
    | none => .error (.unknownOpcode opcode)
    | some m =>
      match Instr.ofOperands m ws with
      | none => .error (.missingOperand m)
      | some r => .ok r

/-- R52: the number of Words of an instruction, known from its opcode Word alone. An unknown opcode is one Word (R17). -/
def Config.lengthOf (cfg : Config) (opcode : Word) : Nat :=
  match cfg.mnemonicOf opcode with
  | none => 1
  | some m => 1 + m.operandCount

/-- The operand Words of an instruction, in the order they follow the opcode (R47). -/
def Instr.operands : Instr → List Word
  | .halt => []
  | .noop => []
  | .inca => []
  | .deca => []
  | .seta n => [n]
  | .seti n => [n]
  | .inci => []
  | .cmpi n => [n]
  | .jump t => [t]
  | .jmpz t => [t]
  | .setatom => []
  | .jsr t => [t]
  | .rts => []
  | .bios d g => [d, g]

/-- The encoder: the opcode Word and the operand Words at the next consecutive addresses (R47). -/
def encode (cfg : Config) (i : Instr) : List Word :=
  cfg.opcode i.mnemonic :: i.operands

/-- Word `k` of an instruction given as one number whose bit 0 is the least significant bit of the first Word. -/
def tableWord (w k : Nat) : Word :=
  BitVec.ofNat 64 (w >>> (64 * k))

/-- The Words of a table row's instruction: the bits from `nbits` up are 0, and the longest instruction has three Words. -/
def tableWords (nbits w : Nat) : List Word :=
  [tableWord (w % 2 ^ nbits) 0, tableWord (w % 2 ^ nbits) 1, tableWord (w % 2 ^ nbits) 2]

/-- What the default machine's decoder reads from an instruction whose bits are `w`. -/
def decodeTableWord (nbits w : Nat) : Option Instr :=
  match decode Config.default (tableWords nbits w) with
  | .ok (i, _) => some i
  | .error _ => none

end Sys2Proof
end

