-- ==== Sys2Proof/Machine/State.lean ====
section
/-! DEFINITION. The state of the core (spec/10_state.md), its reset value (spec/70_reset_and_hazards.md R117), and the reasons
a step of the model can stop. -/

namespace Sys2Proof.Machine

/-- The three faults of the core (R100). -/
inductive FaultCause
  /-- code 1: the opcode word is not in OPCODE's image -/
  | unknownOpcode
  /-- code 2: RTS with an empty stack -/
  | stackUnderflow
  /-- code 3: JSR on a full stack of finite depth -/
  | stackOverflow
deriving DecidableEq, Repr

/-- The run status (R25), with the fault record (R26) in `faulted`. -/
inductive Status
  /-- after reset -/
  | ready
  /-- between the host's Run and the end of the run -/
  | running
  /-- after HALT -/
  | halted
  /-- `Faulted(cause, addr, word)`: addr is the faulting instruction's opcode address, word the opcode fetched there -/
  | faulted (cause : FaultCause) (addr : Word) (word : Word)
deriving DecidableEq, Repr

/-- The sparse memory (R29, R31): pairs of a word address and the Word held there. The unit is the Word, the smallest thing
the spec addresses ("Nothing is byte-addressable"; DEDUCED, log entry 7). `Memory.wf` says the canonical form. -/
structure Memory where
  cells : List (Nat × Word)
deriving DecidableEq, Repr

/-- Everything the spec gives the core (R15, R21, R25, R29, R30), and `draws`, the model's own counter of free values. -/
structure State where
  /-- program counter: "address of the next Word to fetch" (R16) -/
  P : Word
  /-- accumulator (R18) -/
  A : Word
  /-- index register (R19) -/
  I : Word
  /-- FlagZero, the only flag (R20) -/
  Z : Bool
  /-- the call stack S, its top at the END of the list (R12, R21) -/
  stack : List Word
  /-- memory M (R29) -/
  mem : Memory
  /-- the run status and fault record (R25, R26) -/
  status : Status
  /-- the bytes passed to the output sink, oldest first (R30) -/
  out : List Byte
  /-- THE MODEL'S OWN, not the spec's: how many underflow reports have been drawn (R93, log entry 5) -/
  draws : Nat
deriving DecidableEq, Repr

/-- Why the model's step has no next state. The spec's own faults are no such stop: they are NEXT states whose status is
`faulted` (R102). -/
inductive Fault
  /-- Raised by `step` when the status is not Running: "A step is enabled only when `status == Running`" (R72, R103).
  Safe: the core takes no step there either (DESIGN CHOICE, log entry 8). -/
  | notRunning
deriving DecidableEq, Repr

/-- Why the model gives an instruction no meaning. -/
inductive Refusal
  /-- Raised by an arm of `exec` whose instruction has no meaning yet. Safe. No arm raises it. -/
  | notModelled (mnemonic : String)
deriving DecidableEq, Repr

/-- R117: "Nothing is left unspecified at reset." Every field is zero, false or empty and the status is Ready; memory lists
nothing. `draws` is the model's own (DESIGN CHOICE 0, log entry 5). -/
def State.reset : State where
  P := 0
  A := 0
  I := 0
  Z := false
  stack := []
  mem := { cells := [] }
  status := .ready
  out := []
  draws := 0

end Sys2Proof.Machine
end

