-- ==== Sys2Proof/Machine/Memory.lean ====
section
/-! DEFINITION. Memory operations (spec/20_memory.md R31 to R36): the read port, the loader's write port, and the canonical
form of the cell list. -/

namespace Sys2Proof.Machine

/-- What an unlisted address reads as: "absent keys read as 0" (R29, R32). -/
def Memory.unlisted : Word := 0

/-- The Word of the first cell at a key. -/
def lookupCell : List (Nat × Word) → Nat → Word
  | [], _ => Memory.unlisted
  | (k, v) :: rest, a => if k = a then v else lookupCell rest a

/-- `MemRead(addr, 1)` (R13, R32): never fails, for any of the 2^64 addresses (R35). -/
def Memory.read (m : Memory) (addr : Word) : Word :=
  lookupCell m.cells addr.toNat

/-- A canonical list with one key set to one Word: an entry that would read as an unlisted address is not listed. -/
def setCell : List (Nat × Word) → Nat → Word → List (Nat × Word)
  | [], a, v => if v = Memory.unlisted then [] else [(a, v)]
  | (k, x) :: rest, a, v =>
    if a < k then
      if v = Memory.unlisted then (k, x) :: rest else (a, v) :: (k, x) :: rest
    else if a = k then
      if v = Memory.unlisted then rest else (a, v) :: rest
    else (k, x) :: setCell rest a v

/-- `MemWrite(addr, 1, v)` (R13): only the loader calls it (R34, R36). -/
def Memory.write (m : Memory) (addr v : Word) : Memory :=
  { cells := setCell m.cells addr.toNat v }

/-- The Words `ws` at consecutive addresses from `addr`, modulo 2^64. -/
def Memory.writeWords (m : Memory) (addr : Word) : List Word → Memory
  | [] => m
  | w :: ws => (m.write addr w).writeWords (addr + 1) ws

/-- The canonical form of a cell list: keys are addresses, strictly rising, and no entry reads as an unlisted one. -/
def cellsWf : List (Nat × Word) → Bool
  | [] => true
  | (k, v) :: rest => decide (k < 2 ^ 64) && decide (v ≠ Memory.unlisted) && rest.all (fun c => decide (k < c.1)) && cellsWf rest

/-- The canonical form of a memory: equal memories are equal data. -/
def Memory.wf (m : Memory) : Bool :=
  cellsWf m.cells

end Sys2Proof.Machine
end

