-- ==== Sys2Proof/Machine/Ops.lean ====
section
/-! DEFINITION. The named operations over the state (spec/00_scope.md R12, R13): register writes, the call stack, the output
sink, stopping, and taking a fault. There is no return from a fault to put beside it: "The ISA has no return-from-trap
instruction and no handler" (spec/60_exceptions.md R106); only the host's reset leaves Faulted (R103). -/

namespace Sys2Proof.Machine

/-- What a step or a meaning answers. -/
abbrev Result := Host.Outcome State Fault Refusal

/-- `P <- v` (R12). -/
def State.setP (s : State) (v : Word) : State := { s with P := v }

/-- `A <- v` (R12). -/
def State.setA (s : State) (v : Word) : State := { s with A := v }

/-- `I <- v` (R12). -/
def State.setI (s : State) (v : Word) : State := { s with I := v }

/-- `Z <- v` (R12). -/
def State.setZ (s : State) (v : Bool) : State := { s with Z := v }

/-- `status <- v` (R25). -/
def State.setStatus (s : State) (v : Status) : State := { s with status := v }

/-- `push(v)` "appends; never fails" (R12, R21). -/
def State.push (s : State) (v : Word) : State := { s with stack := s.stack ++ [v] }

/-- `pop()` (R12, R21): the most recently pushed Word and the state without it; `none` when the stack is empty. -/
def State.pop (s : State) : Option (Word × State) :=
  match s.stack.getLast? with
  | none => none
  | some v => some (v, { s with stack := s.stack.dropLast })

/-- R91's overflow condition: STACK_DEPTH is finite and `length(S) == STACK_DEPTH`. -/
def State.stackFull (s : State) (depth : Option Nat) : Bool :=
  match depth with
  | none => false
  | some n => s.stack.length == n

/-- `Out(b)` (R12): one byte appended to the output stream. The sink always takes it (R98; UNVERIFIED, unsafe, log entry 11). -/
def State.emit (s : State) (b : Byte) : State := { s with out := s.out ++ [b] }

/-- `out <- out ++ UNDERFLOW_REPORT` (R93): the report is a fresh free value. -/
def State.emitReport (s : State) : State :=
  { s with out := s.out ++ Config.underflowReport s.draws, draws := s.draws + 1 }

/-- `stop` (R13): `status <- Halted`. -/
def State.stop (s : State) : State := s.setStatus .halted

/-- The read half of `Fetch()` (R13, R74): the Word at address P. -/
def State.fetchedWord (s : State) : Word := s.mem.read s.P

/-- The advance half of `Fetch()` and of the opcode fetch (R73, R74): `P <- P + 1` modulo 2^64. -/
def State.advance (s : State) : State := s.setP (s.P + 1)

/-- `raise Fault(cause, addr = p, word = opcode)` (R13, R102), applied to the state at the START of the step, where P is the
opcode's address p. P is left at p + 1, the record holds p and the opcode word fetched there (the Word in memory at p:
DEDUCED, safe, log entry 14), and nothing else changes. -/
def State.raiseFault (s : State) (cause : FaultCause) : State :=
  s.advance.setStatus (.faulted cause s.P s.fetchedWord)

/-- R93: RTS with an empty stack, from the state at the start of the step. -/
def State.rtsUnderflow (s : State) : RtsUnderflowPolicy → State
  | .fault => s.raiseFault .stackUnderflow
  | .continueKeepP => s.advance.emitReport
  | .continueZeroP => s.advance.emitReport.setP 0

/-- R76: an opcode word outside OPCODE's image, from the state at the start of the step. -/
def State.unknownOpcode (s : State) : UnknownOpcodePolicy → State
  | .fault => s.raiseFault .unknownOpcode
  | .noop => s.advance

/-- An outcome with its next state changed; a fault or a refusal stays. -/
def mapNext (f : State → State) : Result → Result
  | .next s => .next (f s)
  | .fault r => .fault r
  | .refused r => .refused r

end Sys2Proof.Machine
end

