-- ==== Sys2Proof/Machine/Fetch.lean ====
section
/-! DEFINITION. The fetch and decode half of the step (spec/40_fetch_execute.md R72 to R76), which `step` and `stepWith` share,
and the placing of one instruction where it is fetched. -/

namespace Sys2Proof.Machine

/-- The Words that `n` successive `Fetch()`es return, the opcode fetch first (R73, R74). -/
def State.fetchWords (s : State) : Nat → List Word
  | 0 => []
  | n + 1 => s.fetchedWord :: s.advance.fetchWords n

/-- The instruction at P: its length is known from the opcode Word (R52), and no Word past its operands is read (R33). -/
def State.fetchInstr (s : State) (cfg : Config) : Except DecodeError (Instr × List Word) :=
  decode cfg (s.fetchWords (cfg.lengthOf s.fetchedWord))

/-- The addresses of `n` successive `Fetch()`es. -/
def fetchAddresses (p : Word) : Nat → List Word
  | 0 => []
  | n + 1 => p :: fetchAddresses (p + 1) n

/-- Every address a step reads (R33): the opcode, each operand, and I for SETATOM. A JSR that overflows reads its opcode
alone: "The faulting instruction fetches no operand before its fault is detected" (R102). -/
def State.readAddresses (s : State) (cfg : Config) : List Word :=
  if cfg.mnemonicOf s.fetchedWord = some .jsr ∧ s.stackFull cfg.stackDepth = true then [s.P]
  else fetchAddresses s.P (cfg.lengthOf s.fetchedWord) ++
    (if cfg.mnemonicOf s.fetchedWord = some .setatom then [s.I] else [])

/-- One step under `cfg` with the dispatch `run` (R72, R75, R76, R77): enabled only when Running. -/
def State.stepBy (s : State) (cfg : Config) (run : Instr → State → Result) : Result :=
  match s.status with
  | .running =>
    match s.fetchInstr cfg with
    | .ok (i, _) => run i s
    | .error _ => .next (s.unknownOpcode cfg.unknownOpcodePolicy)
  | .ready => .fault .notRunning
  | .halted => .fault .notRunning
  | .faulted _ _ _ => .fault .notRunning

/-- The state with the Words `ws` stored from P on and the core started: what the host's load and Run give (DEDUCED, safe, log entry 9). -/
def State.placeAtP (s : State) (ws : List Word) : State :=
  { s with mem := s.mem.writeWords s.P ws, status := .running }

end Sys2Proof.Machine
end

