-- ==== Sys2Proof/Machine/Operands.lean ====
section
/-! DEFINITION. The operand forms (spec/30_encoding.md R47 to R49). An operand is the whole Word at the next address, taken
unchanged; the registers are implied by the opcode. An instruction's operand Words stand in its `Instr`; what is left for a
meaning is P's movement past its Words, by format. -/

namespace Sys2Proof.Machine

/-- Format F0: the opcode fetch alone, P = p + 1 (R73). -/
def State.pastF0 (s : State) : State := s.advance

/-- Format F1: the opcode fetch and one `Fetch()`, P = p + 2 (R73, R74). -/
def State.pastF1 (s : State) : State := s.advance.advance

/-- Format F2: the opcode fetch and two `Fetch()`es, P = p + 3 (R73, R74). -/
def State.pastF2 (s : State) : State := s.advance.advance.advance

/-- SETATOM's operand: the Word in memory at the address in I (R85). -/
def State.indexedWord (s : State) : Word := s.mem.read s.I

/-- BIOS's operand: bits 7:0 of A (R95, R38). -/
def State.lowByteA (s : State) : Byte := s.A.extractLsb' 0 8

/-- BIOS's condition: the direction is IO_WRITE and the target TARGET_STDOUT, compared as whole Words (R95). -/
def isWriteToStdout (cfg : Config) (direction target : Word) : Bool :=
  direction == cfg.ioCode .ioWrite && target == cfg.ioCode .targetStdout

end Sys2Proof.Machine
end

