-- ==== Sys2Proof/Machine/Accumulator.lean ====
section
/-! DEFINITION. Accumulator instructions: INCA, DECA, SETA, SETATOM (spec/42_accumulator.md). None writes FlagZero. -/

namespace Sys2Proof.Machine

/-- INCA (R82): `A <- A + 1` modulo 2^64. -/
def execInca (s : State) : Result := .next (s.pastF0.setA (s.A + 1))

/-- DECA (R83): `A <- A - 1` modulo 2^64. -/
def execDeca (s : State) : Result := .next (s.pastF0.setA (s.A - 1))

/-- SETA (R84): `A <- Fetch()`. -/
def execSeta (imm : Word) (s : State) : Result := .next (s.pastF1.setA imm)

/-- SETATOM (R85): `A <- MemRead(I, 1)`, a read (spec/90_conflicts.md C1). -/
def execSetatom (s : State) : Result := .next (s.pastF0.setA s.indexedWord)

end Sys2Proof.Machine
end

