-- ==== Sys2Proof/Machine/Flags.lean ====
section
/-! DEFINITION. The one flag computation of the core (spec/10_state.md R20, spec/43_index_compare.md R88). INCA, DECA and INCI
compute no flag, whatever their result. -/

namespace Sys2Proof.Machine

/-- `Z <- (v == I)`: all 64 bits compared, equality only (R88). -/
def compareFlag (operand index : Word) : Bool := operand == index

/-- JMPZ's condition: the jump is taken when FlagZero is FALSE (R90, spec/90_conflicts.md C6). -/
def jmpzTaken (flagZero : Bool) : Bool := !flagZero

end Sys2Proof.Machine
end

