-- ==== Sys2Proof/Machine/ControlTransfer.lean ====
section
/-! DEFINITION. Control transfer: JUMP, JMPZ, JSR, RTS (spec/44_control_transfer.md). JSR and RTS depend on the parameters
STACK_DEPTH and RTS_UNDERFLOW_POLICY: `jsrWith` and `rtsWith` take them, `execJsr` and `execRts` are the default machine's. -/

namespace Sys2Proof.Machine

/-- JUMP (R89): `P <- Fetch()`. -/
def execJump (target : Word) (s : State) : Result := .next (s.pastF1.setP target)

/-- JMPZ (R90): the operand is consumed in both cases; the jump is taken when FlagZero is false. -/
def execJmpz (target : Word) (s : State) : Result :=
  .next (if jmpzTaken s.Z then s.pastF1.setP target else s.pastF1)

/-- JSR (R91): overflow on a full stack before any operand fetch; otherwise push p + 2 and jump (spec/90_conflicts.md C3). -/
def jsrWith (cfg : Config) (target : Word) (s : State) : Result :=
  .next (if s.stackFull cfg.stackDepth then s.raiseFault .stackOverflow
    else (s.pastF1.push s.pastF1.P).setP target)

/-- RTS (R92): `P <- pop()`; on an empty stack, R93. -/
def rtsWith (cfg : Config) (s : State) : Result :=
  match s.pastF0.pop with
  | none => .next (s.rtsUnderflow cfg.rtsUnderflowPolicy)
  | some (v, t) => .next (t.setP v)

/-- JSR of the default machine: the stack is unbounded and "never fails" (R21, R22). -/
def execJsr (target : Word) (s : State) : Result := jsrWith Config.default target s

/-- RTS of the default machine: an empty stack is the fault StackUnderflow (R93). -/
def execRts (s : State) : Result := rtsWith Config.default s

end Sys2Proof.Machine
end

