-- ==== Sys2Proof/Machine/DeviceIo.lean ====
section
/-! DEFINITION. Device I/O: BIOS and the output sink port (spec/45_device_io.md). The BIOS codes are parameters (R96):
`biosWith` takes them, `execBios` is the default machine's. -/

namespace Sys2Proof.Machine

/-- BIOS (R95): both operands are consumed; write-to-stdout emits A[7:0], every other code pair has no further effect. -/
def biosWith (cfg : Config) (direction target : Word) (s : State) : Result :=
  .next (if isWriteToStdout cfg direction target then s.pastF2.emit s.lowByteA else s.pastF2)

/-- BIOS of the default machine. -/
def execBios (direction target : Word) (s : State) : Result := biosWith Config.default direction target s

end Sys2Proof.Machine
end

