-- ==== Sys2Proof/Machine/IndexCompare.lean ====
section
/-! DEFINITION. Index and compare instructions: SETI, INCI, CMPI (spec/43_index_compare.md). -/

namespace Sys2Proof.Machine

/-- SETI (R86): `I <- Fetch()`. -/
def execSeti (imm : Word) (s : State) : Result := .next (s.pastF1.setI imm)

/-- INCI (R87): `I <- I + 1` modulo 2^64; FlagZero is unchanged. -/
def execInci (s : State) : Result := .next (s.pastF0.setI (s.I + 1))

/-- CMPI (R88): `v <- Fetch(); Z <- (v == I)`. -/
def execCmpi (imm : Word) (s : State) : Result := .next (s.pastF1.setZ (compareFlag imm s.I))

end Sys2Proof.Machine
end

