-- ==== Sys2Proof/Machine/MachineControl.lean ====
section
/-! DEFINITION. Machine control: HALT and NOOP (spec/41_machine_control.md). -/

namespace Sys2Proof.Machine

/-- HALT (R80): `stop`; P keeps p + 1. -/
def execHalt (s : State) : Result := .next s.pastF0.stop

/-- NOOP (R81): nothing beyond the opcode fetch. -/
def execNoop (s : State) : Result := .next s.pastF0

end Sys2Proof.Machine
end

