-- ==== Sys2Proof/Machine/Dispatch.lean ====
section
/-! DEFINITION. The dispatch of spec/40_fetch_execute.md R75: one arm per instruction, each one call of its meaning. -/

namespace Sys2Proof.Machine

def exec (i : Instr) (s : State) : Host.Outcome State Fault Refusal :=
  match i with
  | .halt => Sys2Proof.Machine.execHalt s
  | .noop => Sys2Proof.Machine.execNoop s
  | .inca => Sys2Proof.Machine.execInca s
  | .deca => Sys2Proof.Machine.execDeca s
  | .seta imm => Sys2Proof.Machine.execSeta imm s
  | .seti imm => Sys2Proof.Machine.execSeti imm s
  | .inci => Sys2Proof.Machine.execInci s
  | .cmpi imm => Sys2Proof.Machine.execCmpi imm s
  | .jump target => Sys2Proof.Machine.execJump target s
  | .jmpz target => Sys2Proof.Machine.execJmpz target s
  | .setatom => Sys2Proof.Machine.execSetatom s
  | .jsr target => Sys2Proof.Machine.execJsr target s
  | .rts => Sys2Proof.Machine.execRts s
  | .bios direction target => Sys2Proof.Machine.execBios direction target s

end Sys2Proof.Machine
end

