-- ==== Sys2Proof/Machine/Parametric.lean ====
section
/-! DEFINITION. The same dispatch for EVERY machine of spec/00_scope.md R9: the parameters are an argument. Only JSR, RTS and
BIOS read them; every other instruction is its one meaning. -/

namespace Sys2Proof.Machine

/-- R75's dispatch under the parameters `cfg`. At `Config.default` it is `exec` (Laws: `execWith_default`). -/
def execWith (cfg : Config) (i : Instr) (s : State) : Result :=
  match i with
  | .halt => execHalt s
  | .noop => execNoop s
  | .inca => execInca s
  | .deca => execDeca s
  | .seta imm => execSeta imm s
  | .seti imm => execSeti imm s
  | .inci => execInci s
  | .cmpi imm => execCmpi imm s
  | .jump target => execJump target s
  | .jmpz target => execJmpz target s
  | .setatom => execSetatom s
  | .jsr target => jsrWith cfg target s
  | .rts => rtsWith cfg s
  | .bios direction target => biosWith cfg direction target s

end Sys2Proof.Machine
end

