-- ==== Sys2Proof/Machine/Step.lean ====
section
/-! DEFINITION. One step of the core (spec/40_fetch_execute.md R72, R77): of the default machine, and of every machine. -/

namespace Sys2Proof.Machine

/-- One step of the spec's default machine. -/
def step (s : State) : Host.Outcome State Fault Refusal :=
  s.stepBy Config.default exec

/-- One step of the machine with the parameters `cfg` (R9). -/
def stepWith (cfg : Config) (s : State) : Result :=
  s.stepBy cfg (execWith cfg)

/-- `s` with the instruction whose bits are `w` stored at P, and the status Running, so that the very next step runs it
(log entry 9). -/
def State.withFetchWord (s : State) (nbits w : Nat) : State :=
  s.placeAtP (tableWords nbits w)

end Sys2Proof.Machine
end

