-- ==== Sys2Proof/Machine/ImageCodec.lean ====
section
/-! DEFINITION. The binary image codec (spec/30_encoding.md R68 to R70), a tool beside the core (R6). -/

namespace Sys2Proof.Machine

/-- The codec's one error (R69): "a trailing partial group (fewer than 8 bytes)". -/
inductive CodecError
  | truncatedInput
deriving DecidableEq, Repr

/-- Byte `j` of a Word's 8-byte group is bits `63 - 8j : 56 - 8j` (R68): the most significant byte comes first. -/
def imageByte (w : Word) (j : Nat) : Byte := w.extractLsb' (56 - 8 * j) 8

/-- "each Word written as 8 bytes, big-endian" (R68). -/
def encodeWord (w : Word) : List Byte :=
  [imageByte w 0, imageByte w 1, imageByte w 2, imageByte w 3, imageByte w 4, imageByte w 5, imageByte w 6, imageByte w 7]

/-- "concatenated in order" (R68). -/
def encodeImage : List Word → List Byte
  | [] => []
  | w :: ws => encodeWord w ++ encodeImage ws

/-- `Σ byte[j] · 2^(8·(7-j))` over one group (R69). -/
def wordOfBytes (b0 b1 b2 b3 b4 b5 b6 b7 : Byte) : Word :=
  b0 ++ b1 ++ b2 ++ b3 ++ b4 ++ b5 ++ b6 ++ b7

/-- "reads 8-byte groups until input exhausted" (R69); no Words are returned with an error. -/
def decodeImage : List Byte → Except CodecError (List Word)
  | [] => .ok []
  | b0 :: b1 :: b2 :: b3 :: b4 :: b5 :: b6 :: b7 :: rest =>
    match decodeImage rest with
    | .ok ws => .ok (wordOfBytes b0 b1 b2 b3 b4 b5 b6 b7 :: ws)
    | .error e => .error e
  | _ :: _ => .error .truncatedInput

end Sys2Proof.Machine
end

