-- ==== Sys2Proof/Machine/HostPort.lean ====
section
/-! DEFINITION. What the host can do to the core (spec/70_reset_and_hazards.md R116, R119, R122; spec/20_memory.md R36, R37;
spec/30_encoding.md R71): reset, load, Run, and reading the state. These are inputs from outside, not steps. -/

namespace Sys2Proof.Machine

/-- Why a load does not happen. -/
inductive LoadError
  /-- the core is running: "The host may use the loader only while status is not Running" (R36) -/
  | coreRunning
  /-- more Words than there are addresses (R9, R35; DESIGN CHOICE, safe, log entry 10) -/
  | tooLong
  /-- R71: the image file does not exist -/
  | fileNotFound
  /-- R69, R71: the image ends in a partial group -/
  | truncatedInput
deriving DecidableEq, Repr

/-- Reset (R116), allowed in any status: every item of R117 takes its reset value at once. The draw counter is the model's
own and goes on, so that no two reports are forced to be equal (log entry 5). -/
def State.hostReset (s : State) : State :=
  { State.reset with draws := s.draws }

/-- Load (R36): `MemWrite(k, 1, w[k])` for each `k < n`, no register changed. -/
def State.hostLoad (s : State) (ws : List Word) : Except LoadError State :=
  if s.status = .running then .error .coreRunning
  else if ws.length ≤ 2 ^ 64 then .ok { s with mem := s.mem.writeWords 0 ws }
  else .error .tooLong

/-- Load of a binary image file (R37, R71); `none` is a file that is not there. -/
def State.hostLoadImage (s : State) : Option (List Byte) → Except LoadError State
  | none => .error .fileNotFound
  | some bytes =>
    match decodeImage bytes with
    | .error .truncatedInput => .error .truncatedInput
    | .ok ws => s.hostLoad ws

/-- Run (R119, R120): Ready or Halted becomes Running at the current P; in Faulted it does nothing (R103); in Running it
cannot be issued (`none`). -/
def State.hostRun (s : State) : Option State :=
  match s.status with
  | .ready => some (s.setStatus .running)
  | .halted => some (s.setStatus .running)
  | .running => none
  | .faulted _ _ _ => some s

/-- The fault record (R26), readable while the status is Faulted. -/
structure FaultRecord where
  cause : FaultCause
  addr : Word
  word : Word
deriving DecidableEq, Repr

/-- The numeric cause code of R100. -/
def FaultCause.code : FaultCause → Nat
  | .unknownOpcode => 1
  | .stackUnderflow => 2
  | .stackOverflow => 3

/-- R26: the record held by a Faulted status. -/
def Status.faultRecord : Status → Option FaultRecord
  | .faulted cause addr word => some { cause := cause, addr := addr, word := word }
  | .ready => none
  | .running => none
  | .halted => none

/-- What the host reads (R122's "read state" row). -/
structure HostView where
  P : Word
  A : Word
  I : Word
  FlagZero : Bool
  S : List Word
  status : Status
  faultRecord : Option FaultRecord
deriving DecidableEq, Repr

/-- Read state (R122), allowed while the status is not Running. -/
def State.hostRead (s : State) : Option HostView :=
  if s.status = .running then none
  else some { P := s.P, A := s.A, I := s.I, FlagZero := s.Z, S := s.stack, status := s.status,
              faultRecord := s.status.faultRecord }

end Sys2Proof.Machine
end

