-- ==== Sys2Proof/Machine/Assembler.lean ====
section
/-! DEFINITION. The assembler (spec/30_encoding.md R54 to R67), a tool beside the core (R6): tokens, pass 1, pass 2. Text is a
list of characters. -/

namespace Sys2Proof.Machine

/-- A token (R54): "a maximal run of non-whitespace characters". -/
abbrev Token := List Char

/-- The assembler's errors (R65), each with the offending token and a position. The position is the token's index in the text
(from 0), for `undefinedLabel` the output position of its first reference (DESIGN CHOICE, log entry 16). -/
inductive AsmError
  /-- R58: a second definition of one label name -/
  | duplicateLabel (token : Token) (position : Nat)
  /-- R59: fewer operand tokens than required -/
  | missingOperand (token : Token) (position : Nat)
  /-- R59: an operand slot holds a mnemonic or a label definition -/
  | invalidOperand (token : Token) (position : Nat)
  /-- R63: a reference to a name with no definition -/
  | undefinedLabel (token : Token) (position : Nat)
  /-- R62: a data token that is neither a decimal number nor a string -/
  | unparsableData (token : Token) (position : Nat)
deriving DecidableEq, Repr

/-- The assembler's state during one call (R57). Addresses and positions count output Words (R64). -/
structure AsmState where
  /-- the output Word sequence -/
  out : List Word
  /-- the label table: name, address -/
  labels : List (Token × Nat)
  /-- the reference table: name, patch positions -/
  refs : List (Token × List Nat)
deriving DecidableEq, Repr

/-- R57: empty at the start. -/
def AsmState.start : AsmState := { out := [], labels := [], refs := [] }

/-- The token read so far, if it is one. -/
def flushToken (cur : Token) : List Token :=
  match cur with
  | [] => []
  | c :: cs => [c :: cs]

/-- The tokens of a text, `cur` being the run of non-whitespace characters read so far. -/
def tokensFrom (isSpace : Char → Bool) : Token → List Char → List Token
  | cur, [] => flushToken cur
  | cur, c :: cs =>
    if isSpace c then flushToken cur ++ tokensFrom isSpace [] cs else tokensFrom isSpace (cur ++ [c]) cs

/-- R54: the whitespace-separated tokens of a text. -/
def tokenise (isSpace : Char → Bool) (text : List Char) : List Token := tokensFrom isSpace [] text

/-- The spelling of a mnemonic, in capitals (R2, R55). -/
def spelling : Mnemonic → Token
  | .halt => ['H', 'A', 'L', 'T']
  | .noop => ['N', 'O', 'O', 'P']
  | .inca => ['I', 'N', 'C', 'A']
  | .deca => ['D', 'E', 'C', 'A']
  | .seta => ['S', 'E', 'T', 'A']
  | .seti => ['S', 'E', 'T', 'I']
  | .inci => ['I', 'N', 'C', 'I']
  | .cmpi => ['C', 'M', 'P', 'I']
  | .jump => ['J', 'U', 'M', 'P']
  | .jmpz => ['J', 'M', 'P', 'Z']
  | .setatom => ['S', 'E', 'T', 'A', 'T', 'O', 'M']
  | .jsr => ['J', 'S', 'R']
  | .rts => ['R', 'T', 'S']
  | .bios => ['B', 'I', 'O', 'S']

/-- The mnemonic a token spells, matched exactly (R55, R59). -/
def mnemonicOfToken (tok : Token) : Option Mnemonic :=
  Mnemonic.all.find? fun m => spelling m == tok

/-- R58: a token that ends with the label terminator, a colon. -/
def isLabelDefinition (tok : Token) : Bool := tok.getLast? == some ':'

/-- R59: an operand slot may hold neither a mnemonic nor a label definition. -/
def isBadOperand (tok : Token) : Bool := (mnemonicOfToken tok).isSome || isLabelDefinition tok

/-- The first bad operand among the slot tokens, with its index. -/
def firstBadOperand : List Token → Nat → Option (Token × Nat)
  | [], _ => none
  | t :: ts, k => if isBadOperand t then some (t, k) else firstBadOperand ts (k + 1)

/-- R59's arity check of the mnemonic token `tok` at index `k`, followed by the tokens `rest`. -/
def checkOperands (m : Mnemonic) (tok : Token) (k : Nat) (rest : List Token) : Except AsmError Unit :=
  if rest.length < m.operandCount then .error (.missingOperand tok k)
  else
    match firstBadOperand (rest.take m.operandCount) (k + 1) with
    | some (bad, j) => .error (.invalidOperand bad j)
    | none => .ok ()

/-- R60: the BIOS code an I/O symbolic constant names. -/
def ioCodeOfToken (asm : AsmConfig) (tok : Token) : Option IoCode := asm.ioSymbols.lookup tok

/-- One more patch position for a name (R57, R61). -/
def addReference : List (Token × List Nat) → Token → Nat → List (Token × List Nat)
  | [], name, k => [(name, [k])]
  | (n, ks) :: rest, name, k => if n = name then (n, ks ++ [k]) :: rest else (n, ks) :: addReference rest name k

/-- The value of one decimal digit. -/
def digitValue (c : Char) : Nat := c.toNat - '0'.toNat

/-- The value of a run of decimal digits. -/
def decimalValue (digits : List Char) : Nat := digits.foldl (fun n c => 10 * n + digitValue c) 0

/-- R62: "Strip an optional leading data-marker character". -/
def stripMarker (asm : AsmConfig) : Token → Token
  | [] => []
  | c :: cs => if c = asm.dataMarker then cs else c :: cs

/-- R62: the Words of a data token, `none` for `UnparsableData`. -/
def dataWords (asm : AsmConfig) (tok : Token) : Option (List Word) :=
  match stripMarker asm tok with
  | [] => none
  | c :: cs =>
    if c.isDigit then
      if (c :: cs).all Char.isDigit && decide (decimalValue (c :: cs) < 2 ^ 64) then
        some [BitVec.ofNat 64 (decimalValue (c :: cs))]
      else none
    else if asm.isLetter c then some ((c :: cs).map fun ch => BitVec.ofNat 64 ch.toNat)
    else none

/-- R61: "the token begins with a letter". -/
def isLetterLed (asm : AsmConfig) : Token → Bool
  | [] => false
  | c :: _ => asm.isLetter c

/-- Pass 1 on one token (R58 to R62): the first step that fits. `k` is the token's index and `rest` the tokens after it. -/
def pass1Token (cfg : Config) (asm : AsmConfig) (tok : Token) (k : Nat) (rest : List Token) (st : AsmState) :
    Except AsmError AsmState :=
  if isLabelDefinition tok then
    match st.labels.lookup tok.dropLast with
    | some _ => .error (.duplicateLabel tok k)
    | none => .ok { st with labels := st.labels ++ [(tok.dropLast, st.out.length)] }
  else
    match mnemonicOfToken tok with
    | some m =>
      match checkOperands m tok k rest with
      | .error e => .error e
      | .ok _ => .ok { st with out := st.out ++ [cfg.opcode m] }
    | none =>
      match ioCodeOfToken asm tok with
      | some code => .ok { st with out := st.out ++ [cfg.ioCode code] }
      | none =>
        if isLetterLed asm tok then
          .ok { st with out := st.out ++ [0], refs := addReference st.refs tok st.out.length }
        else
          match dataWords asm tok with
          | some ws => .ok { st with out := st.out ++ ws }
          | none => .error (.unparsableData tok k)

/-- Pass 1 (R58): "takes the tokens in order". -/
def pass1 (cfg : Config) (asm : AsmConfig) : List Token → Nat → AsmState → Except AsmError AsmState
  | [], _, st => .ok st
  | tok :: rest, k, st =>
    match pass1Token cfg asm tok k rest st with
    | .error e => .error e
    | .ok st' => pass1 cfg asm rest (k + 1) st'

/-- R63: "overwrite the Word at each recorded position". -/
def patchPositions (v : Word) : List Nat → List Word → List Word
  | [], out => out
  | k :: ks, out => patchPositions v ks (out.set k v)

/-- Pass 2 (R63) over the reference table. The spec gives no address for a label whose output position is 2^64 or more: the
position is patched modulo 2^64 without an error (DESIGN CHOICE, unsafe, log entry 22). -/
def pass2 (labels : List (Token × Nat)) : List (Token × List Nat) → List Word → Except AsmError (List Word)
  | [], out => .ok out
  | (name, ks) :: rest, out =>
    match labels.lookup name with
    | none => .error (.undefinedLabel name (ks.headD 0))
    | some a => pass2 labels rest (patchPositions (BitVec.ofNat 64 a) ks out)

/-- The two passes over tokens. An error aborts the whole assembly (R65). -/
def assembleTokens (cfg : Config) (asm : AsmConfig) (toks : List Token) : Except AsmError (List Word) :=
  match pass1 cfg asm toks 0 AsmState.start with
  | .error e => .error e
  | .ok st => pass2 st.labels st.refs st.out

/-- The assembler: text to Words. -/
def assemble (cfg : Config) (asm : AsmConfig) (text : List Char) : Except AsmError (List Word) :=
  assembleTokens cfg asm (tokenise asm.isSpace text)

/-- A decimal literal's token (R55). -/
def decimalToken (w : Word) : Token := Nat.toDigits 10 w.toNat

/-- R55: an instruction written as its mnemonic token followed by its operands as decimal literals. -/
def instrTokens (i : Instr) : List Token := spelling i.mnemonic :: i.operands.map decimalToken

end Sys2Proof.Machine
end

