-- ==== Sys2Proof/Machine/RunLoop.lean ====
section
/-! DEFINITION. The run loop (spec/40_fetch_execute.md R78, R79): `step()` repeated while the status is Running. -/

namespace Sys2Proof.Machine

/-- At most `n` steps of the loop; it stays where no step is enabled. A run that never ends is Running for every `n` (R79). -/
def runLoop (cfg : Config) : Nat → State → State
  | 0, s => s
  | n + 1, s =>
    match stepWith cfg s with
    | .next t => runLoop cfg n t
    | .fault _ => s
    | .refused _ => s

end Sys2Proof.Machine
end

