-- ==== Sys2Proof/Safety.lean ====
section
/-! DEFINITION. What a state that a run can reach looks like, and what a run that ends well is. -/

namespace Sys2Proof

open Machine

/-- What a fault record says of the state it was taken in (spec/60_exceptions.md R100, R102). -/
def causeHolds (cfg : Config) (s : State) (word : Word) : FaultCause → Prop
  | .unknownOpcode => cfg.unknownOpcodePolicy = .fault ∧ ∀ m, cfg.opcode m ≠ word
  | .stackUnderflow => cfg.rtsUnderflowPolicy = .fault ∧ word = cfg.opcode .rts ∧ s.stack = []
  | .stackOverflow => word = cfg.opcode .jsr ∧ cfg.stackDepth = some s.stack.length

/-- The invariant every step keeps. It is about steps: a host load into a machine that is not freshly reset may put other
Words where `entriesFollowJsr`, `haltedPastHalt` and `faultRecorded` read. -/
structure Inv (cfg : Config) (s : State) : Prop where
  /-- memory is in canonical form -/
  memoryCanonical : s.mem.wf = true
  /-- a finite stack holds at most STACK_DEPTH entries (R22) -/
  stackBounded : ∀ n, cfg.stackDepth = some n → s.stack.length ≤ n
  /-- each stack entry is the address two Words past a JSR opcode (R23) -/
  entriesFollowJsr : ∀ v ∈ s.stack, s.mem.read (v - 2) = cfg.opcode .jsr
  /-- Halted means that P stands one past a HALT (R80) -/
  haltedPastHalt : s.status = .halted → s.mem.read (s.P - 1) = cfg.opcode .halt
  /-- Faulted means that P stands one past the recorded instruction, whose opcode word is recorded (R26, R102) -/
  faultRecorded : ∀ cause addr word, s.status = .faulted cause addr word →
    s.P = addr + 1 ∧ word = s.mem.read addr ∧ causeHolds cfg s word cause

/-- The Words of `ws` stand in memory at consecutive addresses from `p` on, modulo 2^64. -/
def WordsAt (m : Memory) (p : Word) : List Word → Prop
  | [] => True
  | w :: ws => m.read p = w ∧ WordsAt m (p + 1) ws

/-- The instructions that neither transfer control nor end the run: after each, P is the address after its Words. -/
def IsStraightLine : Instr → Prop
  | .halt => False
  | .noop => True
  | .inca => True
  | .deca => True
  | .seta _ => True
  | .seti _ => True
  | .inci => True
  | .cmpi _ => True
  | .jump _ => False
  | .jmpz _ => False
  | .setatom => True
  | .jsr _ => False
  | .rts => False
  | .bios _ _ => True

/-- The Words of a list of instructions, one after the other (R47). -/
def encodeAll (cfg : Config) (is : List Instr) : List Word := is.flatMap (encode cfg)

/-- A token the assembler takes as a label reference (R61): steps 1 to 3 do not apply and it begins with a letter. -/
def IsReference (asm : AsmConfig) (tok : Token) : Prop :=
  isLabelDefinition tok = false ∧ mnemonicOfToken tok = none ∧ ioCodeOfToken asm tok = none ∧ isLetterLed asm tok = true

/-- A run that ends in HALT within `n` steps (R79). -/
def EndsHalted (cfg : Config) (n : Nat) (s : State) : Prop :=
  (runLoop cfg n s).status = .halted

/-- A run of `n` steps that meets no fault of the core. -/
def NoFault (cfg : Config) (n : Nat) (s : State) : Prop :=
  ∀ k ≤ n, ∀ cause addr word, (runLoop cfg k s).status ≠ .faulted cause addr word

end Sys2Proof
end

