-- ==== Sys2Proof/Certificates/Slice0/Obligations.lean ====
section
/-! DEFINITION. The statements for the provers. `exec` and `step` are the default machine's; `stepWith cfg` is the step of the
machine with the parameters `cfg` (R9), and a statement over every `cfg` holds for every OPCODE, every policy, every stack
depth. None rests on the value of an underflow report or of the draw counter. -/

open Sys2Proof Sys2Proof.Machine

/-! ### Encoding -/

/-- R47, R48, R51: the decoder reads back every instruction with every operand, for every injective OPCODE. -/
def Obligations.DecodeOfEncodeIsTheInstruction : Prop :=
  ∀ (cfg : Config) (i : Instr) (rest : List Word), cfg.wf = true → decode cfg (encode cfg i ++ rest) = .ok (i, rest)

/-- Where decoding succeeds, the Words read are exactly the encoding of the instruction: each Word sequence has one meaning. -/
def Obligations.EncodeOfDecodeIsTheWords : Prop :=
  ∀ (cfg : Config) (ws rest : List Word) (i : Instr), decode cfg ws = .ok (i, rest) → ws = encode cfg i ++ rest

/-- R51, R53: a Word is rejected as an unknown opcode exactly when it differs from every OPCODE(m). -/
def Obligations.DecoderRejectsExactlyUnknownOpcodes : Prop :=
  ∀ (cfg : Config) (w : Word) (ws : List Word),
    decode cfg (w :: ws) = .error (.unknownOpcode w) ↔ ∀ m, cfg.opcode m ≠ w

/-- R48: the number of Words of each instruction, and that the decoder knows it from the opcode Word alone (R52). -/
def Obligations.LengthKnownFromOpcode : Prop :=
  ∀ (cfg : Config) (i : Instr), cfg.wf = true →
    cfg.lengthOf (cfg.opcode i.mnemonic) = (encode cfg i).length ∧
    (encode cfg i).length = 1 + (match i.mnemonic with
      | .halt => 0 | .noop => 0 | .inca => 0 | .deca => 0 | .seta => 1 | .setatom => 0 | .seti => 1 | .inci => 0
      | .cmpi => 1 | .jump => 1 | .jmpz => 1 | .jsr => 1 | .rts => 0 | .bios => 2)

/-- Words written out from the default table and R47's formats decode to their instructions; V-FE-3's Word does not. The
numbers are the spec's own default, its decision D1 ("The other values are the spec's choice", log entry 1). -/
def Obligations.DefaultTableWordsDecode : Prop :=
  decodeTableWord 64 0x0 = some .halt ∧
  decodeTableWord 64 0x2 = some .inca ∧
  decodeTableWord 64 0xA = some .setatom ∧
  decodeTableWord 64 0xC = some .rts ∧
  decodeTableWord 128 0x000000000000000C_0000000000000004 = some (.seta 12) ∧
  decodeTableWord 128 0xFFFFFFFFFFFFFFFF_0000000000000007 = some (.cmpi 0xFFFFFFFFFFFFFFFF) ∧
  decodeTableWord 128 0x0000000000000003_000000000000000B = some (.jsr 3) ∧
  decodeTableWord 192 0x0000000000000002_0000000000000001_000000000000000D = some (.bios 1 2) ∧
  decodeTableWord 64 0x8000000000000000 = none ∧
  decodeTableWord 64 0xE = none

/-- R72 to R75: in a Running core whose Words from P on are an instruction's encoding, the step is that instruction's
execution and nothing more, for the default machine and for every machine. -/
def Obligations.StepExecutesTheDecodedInstruction : Prop :=
  ∀ (i : Instr) (s : State), s.status = .running →
    (WordsAt s.mem s.P (encode Config.default i) → step s = exec i s) ∧
    (∀ cfg : Config, cfg.wf = true → WordsAt s.mem s.P (encode cfg i) → stepWith cfg s = execWith cfg i s)

/-- A table word placed by `withFetchWord` is the very next instruction the default machine runs. The premise on memory is the
canonical form (`Inv`), which reset has and every step and load keep. -/
def Obligations.PlacedTableWordRunsNext : Prop :=
  ∀ (s : State) (nbits w : Nat) (i : Instr), s.mem.wf = true → decodeTableWord nbits w = some i →
    step (s.withFetchWord nbits w) = exec i (s.withFetchWord nbits w)

/-! ### The fourteen instructions -/

/-- R80, HALT: the status becomes Halted, P keeps p + 1, everything else is unchanged; the run ends there; a later Run
resumes at p + 1. -/
def Obligations.HaltStopsPastItself : Prop :=
  ∀ s : State,
    exec .halt s = .next { s with P := s.P + 1, status := .halted } ∧
    ∀ cfg : Config, encode cfg .halt = [cfg.opcode .halt] ∧
      (cfg.wf = true → s.status = .running → s.mem.read s.P = cfg.opcode .halt →
        stepWith cfg s = .next { s with P := s.P + 1, status := .halted } ∧
        (∀ k, runLoop cfg (k + 1) s = { s with P := s.P + 1, status := .halted }) ∧
        ({ s with P := s.P + 1, status := .halted } : State).hostRun = some { s with P := s.P + 1 })

/-- R81, NOOP: P = p + 1 and nothing else. -/
def Obligations.NoopOnlyAdvances : Prop :=
  ∀ s : State,
    exec .noop s = .next { s with P := s.P + 1 } ∧
    ∀ cfg : Config, encode cfg .noop = [cfg.opcode .noop] ∧
      (cfg.wf = true → s.status = .running → s.mem.read s.P = cfg.opcode .noop →
        stepWith cfg s = .next { s with P := s.P + 1 })

/-- R82, INCA: A + 1 modulo 2^64 (the wrap is the spec's decision D6), no flag; INCA then DECA, any
number of times, restores A. -/
def Obligations.IncaIncrementsAModulo : Prop :=
  ∀ s : State,
    exec .inca s = .next { s with P := s.P + 1, A := BitVec.ofNat 64 ((s.A.toNat + 1) % 2 ^ 64) } ∧
    ∀ cfg : Config, encode cfg .inca = [cfg.opcode .inca] ∧
      (cfg.wf = true → s.status = .running → s.mem.read s.P = cfg.opcode .inca →
        stepWith cfg s = .next { s with P := s.P + 1, A := BitVec.ofNat 64 ((s.A.toNat + 1) % 2 ^ 64) }) ∧
      (∀ n, cfg.wf = true → s.status = .running →
        WordsAt s.mem s.P (List.replicate n [cfg.opcode .inca, cfg.opcode .deca]).flatten →
        runLoop cfg (2 * n) s = { s with P := s.P + BitVec.ofNat 64 (2 * n) })

/-- R83, DECA: (A - 1 + 2^64) modulo 2^64 (the wrap is the spec's decision D6), no flag; INCA after it restores A. -/
def Obligations.DecaDecrementsAModulo : Prop :=
  ∀ s : State,
    exec .deca s = .next { s with P := s.P + 1, A := BitVec.ofNat 64 ((s.A.toNat + (2 ^ 64 - 1)) % 2 ^ 64) } ∧
    (∃ t u, exec .deca s = .next t ∧ exec .inca t = .next u ∧ u = { s with P := s.P + 2 }) ∧
    ∀ cfg : Config, encode cfg .deca = [cfg.opcode .deca] ∧
      (cfg.wf = true → s.status = .running → s.mem.read s.P = cfg.opcode .deca →
        stepWith cfg s = .next { s with P := s.P + 1, A := BitVec.ofNat 64 ((s.A.toNat + (2 ^ 64 - 1)) % 2 ^ 64) })

/-- R84, SETA: A becomes the operand, P = p + 2. -/
def Obligations.SetaLoadsItsOperand : Prop :=
  ∀ (n : Word) (s : State),
    exec (.seta n) s = .next { s with P := s.P + 2, A := n } ∧
    ∀ cfg : Config, encode cfg (.seta n) = [cfg.opcode .seta, n] ∧
      (cfg.wf = true → s.status = .running → s.mem.read s.P = cfg.opcode .seta → s.mem.read (s.P + 1) = n →
        stepWith cfg s = .next { s with P := s.P + 2, A := n })

/-- R85, SETATOM: A becomes the Word in memory at the address in I, 0 if that address was never loaded; memory and I are
unchanged. -/
def Obligations.SetatomLoadsFromIndexedAddress : Prop :=
  ∀ s : State,
    exec .setatom s = .next { s with P := s.P + 1, A := s.mem.read s.I } ∧
    (∀ (ws : List Word) (t : State), State.reset.hostLoad ws = .ok t → s.mem = t.mem → ws.length ≤ s.I.toNat →
      exec .setatom s = .next { s with P := s.P + 1, A := 0 }) ∧
    ∀ cfg : Config, encode cfg .setatom = [cfg.opcode .setatom] ∧
      (cfg.wf = true → s.status = .running → s.mem.read s.P = cfg.opcode .setatom →
        stepWith cfg s = .next { s with P := s.P + 1, A := s.mem.read s.I })

/-- R86, SETI: I becomes the operand, P = p + 2. -/
def Obligations.SetiLoadsItsOperand : Prop :=
  ∀ (n : Word) (s : State),
    exec (.seti n) s = .next { s with P := s.P + 2, I := n } ∧
    ∀ cfg : Config, encode cfg (.seti n) = [cfg.opcode .seti, n] ∧
      (cfg.wf = true → s.status = .running → s.mem.read s.P = cfg.opcode .seti → s.mem.read (s.P + 1) = n →
        stepWith cfg s = .next { s with P := s.P + 2, I := n })

/-- R87, INCI: I + 1 modulo 2^64 (the wrap is the spec's decision D6), no flag. -/
def Obligations.InciIncrementsIModulo : Prop :=
  ∀ s : State,
    exec .inci s = .next { s with P := s.P + 1, I := BitVec.ofNat 64 ((s.I.toNat + 1) % 2 ^ 64) } ∧
    ∀ cfg : Config, encode cfg .inci = [cfg.opcode .inci] ∧
      (cfg.wf = true → s.status = .running → s.mem.read s.P = cfg.opcode .inci →
        stepWith cfg s = .next { s with P := s.P + 1, I := BitVec.ofNat 64 ((s.I.toNat + 1) % 2 ^ 64) })

/-- R88, CMPI: FlagZero becomes true when the operand equals I and false otherwise; P = p + 2. -/
def Obligations.CmpiSetsFlagZeroToEquality : Prop :=
  ∀ (n : Word) (s : State),
    exec (.cmpi n) s = .next { s with P := s.P + 2, Z := decide (n = s.I) } ∧
    ∀ cfg : Config, encode cfg (.cmpi n) = [cfg.opcode .cmpi, n] ∧
      (cfg.wf = true → s.status = .running → s.mem.read s.P = cfg.opcode .cmpi → s.mem.read (s.P + 1) = n →
        stepWith cfg s = .next { s with P := s.P + 2, Z := decide (n = s.I) })

/-- R89, JUMP: P becomes the operand. -/
def Obligations.JumpGoesToItsOperand : Prop :=
  ∀ (t : Word) (s : State),
    exec (.jump t) s = .next { s with P := t } ∧
    ∀ cfg : Config, encode cfg (.jump t) = [cfg.opcode .jump, t] ∧
      (cfg.wf = true → s.status = .running → s.mem.read s.P = cfg.opcode .jump → s.mem.read (s.P + 1) = t →
        stepWith cfg s = .next { s with P := t })

/-- R90, JMPZ: P becomes the operand when FlagZero is FALSE, p + 2 when it is true; the flag is not cleared; right after a
CMPI it jumps on mismatch. -/
def Obligations.JmpzJumpsWhenFlagZeroIsFalse : Prop :=
  ∀ (t : Word) (s : State),
    exec (.jmpz t) s = .next { s with P := if s.Z = false then t else s.P + 2 } ∧
    ∀ cfg : Config, encode cfg (.jmpz t) = [cfg.opcode .jmpz, t] ∧
      (cfg.wf = true → s.status = .running → s.mem.read s.P = cfg.opcode .jmpz → s.mem.read (s.P + 1) = t →
        stepWith cfg s = .next { s with P := if s.Z = false then t else s.P + 2 }) ∧
      (∀ n, cfg.wf = true → s.status = .running → WordsAt s.mem s.P [cfg.opcode .cmpi, n, cfg.opcode .jmpz, t] →
        runLoop cfg 2 s = { s with P := if s.I ≠ n then t else s.P + 4, Z := decide (s.I = n) })

/-- R91, JSR: pushes p + 2 and jumps; on a full stack of finite depth it takes the fault StackOverflow with the stack
unchanged and P = p + 1 (the spec's decisions D5, D8). The default machine's stack is unbounded. An RTS reached from it returns
to the instruction after it. -/
def Obligations.JsrPushesReturnAddressOrOverflows : Prop :=
  ∀ (t : Word) (s : State),
    exec (.jsr t) s = .next { s with P := t, stack := s.stack ++ [s.P + 2] } ∧
    (∃ u, exec (.jsr t) s = .next u ∧ exec .rts u = .next { s with P := s.P + 2 }) ∧
    ∀ cfg : Config, encode cfg (.jsr t) = [cfg.opcode .jsr, t] ∧
      (cfg.wf = true → s.status = .running → s.mem.read s.P = cfg.opcode .jsr → s.mem.read (s.P + 1) = t →
        (cfg.stackDepth ≠ some s.stack.length →
          stepWith cfg s = .next { s with P := t, stack := s.stack ++ [s.P + 2] }) ∧
        (cfg.stackDepth = some s.stack.length →
          stepWith cfg s = .next { s with P := s.P + 1, status := .faulted .stackOverflow s.P (cfg.opcode .jsr) }))

/-- R92, RTS: P becomes the most recently pushed Word, which leaves the stack; on an empty stack under policy `fault` it
takes the fault StackUnderflow (the other policies: `RtsUnderflowFollowsPolicy`). -/
def Obligations.RtsPopsIntoP : Prop :=
  ∀ s : State,
    (∀ (older : List Word) (v : Word), s.stack = older ++ [v] → exec .rts s = .next { s with P := v, stack := older }) ∧
    ∀ cfg : Config, encode cfg .rts = [cfg.opcode .rts] ∧
      (cfg.wf = true → s.status = .running → s.mem.read s.P = cfg.opcode .rts →
        (∀ (older : List Word) (v : Word), s.stack = older ++ [v] →
          stepWith cfg s = .next { s with P := v, stack := older }) ∧
        (s.stack = [] → cfg.rtsUnderflowPolicy = .fault →
          stepWith cfg s =
            .next { s with P := s.P + 1, status := .faulted .stackUnderflow s.P (cfg.opcode .rts) }))

/-- R93, RTS on an empty stack, under each RTS_UNDERFLOW_POLICY. Under a continuing policy the bytes emitted are left open:
the statement says only that some finite byte sequence is appended. The default machine faults (the spec's decision D4), and
`exec` records RTS's opcode word where memory at P holds it. -/
def Obligations.RtsUnderflowFollowsPolicy : Prop :=
  ∀ s : State, s.stack = [] →
    (∃ word, exec .rts s = .next { s with P := s.P + 1, status := .faulted .stackUnderflow s.P word } ∧
      (s.mem.read s.P = Config.default.opcode .rts → word = Config.default.opcode .rts)) ∧
    ∀ cfg : Config, cfg.wf = true → s.status = .running → s.mem.read s.P = cfg.opcode .rts →
      match cfg.rtsUnderflowPolicy with
      | .fault => stepWith cfg s =
          .next { s with P := s.P + 1, status := .faulted .stackUnderflow s.P (cfg.opcode .rts) }
      | .continueKeepP => ∃ (report : List Byte) (d : Nat), stepWith cfg s =
          .next { s with P := s.P + 1, out := s.out ++ report, draws := d }
      | .continueZeroP => ∃ (report : List Byte) (d : Nat), stepWith cfg s =
          .next { s with P := 0, out := s.out ++ report, draws := d }

/-- R95, BIOS: write-to-stdout appends the one byte A[7:0]; every other code pair only consumes its operands. Codes are
compared as whole Words. -/
def Obligations.BiosWritesLowByteOfA : Prop :=
  ∀ (d g : Word) (s : State),
    exec (.bios d g) s = .next { s with
      P := s.P + 3, out := if d = Config.default.ioCode .ioWrite ∧ g = Config.default.ioCode .targetStdout
        then s.out ++ [BitVec.ofNat 8 s.A.toNat] else s.out } ∧
    ∀ cfg : Config, encode cfg (.bios d g) = [cfg.opcode .bios, d, g] ∧
      (cfg.wf = true → s.status = .running → s.mem.read s.P = cfg.opcode .bios → s.mem.read (s.P + 1) = d →
        s.mem.read (s.P + 2) = g →
        stepWith cfg s = .next { s with
          P := s.P + 3, out := if d = cfg.ioCode .ioWrite ∧ g = cfg.ioCode .targetStdout
            then s.out ++ [BitVec.ofNat 8 s.A.toNat] else s.out })

/-- R76, an unknown opcode under each UNKNOWN_OPCODE_POLICY (the spec's decision D3), whose default is `fault`. -/
def Obligations.UnknownOpcodeFollowsPolicy : Prop :=
  Config.default.unknownOpcodePolicy = .fault ∧
  ∀ (cfg : Config) (s : State), s.status = .running → (∀ m, cfg.opcode m ≠ s.mem.read s.P) →
    match cfg.unknownOpcodePolicy with
    | .fault => stepWith cfg s =
        .next { s with P := s.P + 1, status := .faulted .unknownOpcode s.P (s.mem.read s.P) }
    | .noop => stepWith cfg s = .next { s with P := s.P + 1 }

/-! ### Whole-machine rules and frames -/

/-- Every instruction completes with a next state in every state, on every machine: no instruction of the core ends in a stop
of the model, and a Running core always has a next step. -/
def Obligations.EveryInstructionCompletes : Prop :=
  (∀ (i : Instr) (s : State), ∃ t, exec i s = .next t) ∧
  (∀ (cfg : Config) (i : Instr) (s : State), ∃ t, execWith cfg i s = .next t) ∧
  (∀ (cfg : Config) (s : State), s.status = .running → ∃ t, stepWith cfg s = .next t)

/-- R34: no instruction and no step changes any Word of memory: every address reads as before. -/
def Obligations.CoreNeverWritesMemory : Prop :=
  (∀ (i : Instr) (s t : State), exec i s = .next t → ∀ a, t.mem.read a = s.mem.read a) ∧
  (∀ (cfg : Config) (s t : State), stepWith cfg s = .next t → ∀ a, t.mem.read a = s.mem.read a)

/-- R18: A is written by INCA, DECA, SETA and SETATOM alone, each with the value it writes, and read by INCA, DECA and (its
bits 7:0) BIOS alone. -/
def Obligations.AccumulatorWritersAndReaders : Prop :=
  ∀ (cfg : Config) (i : Instr) (s : State) (a : Word),
    (∀ t, execWith cfg .inca s = .next t → t.A = s.A + 1) ∧
    (∀ t, execWith cfg .deca s = .next t → t.A = s.A - 1) ∧
    (∀ n t, execWith cfg (.seta n) s = .next t → t.A = n) ∧
    (∀ t, execWith cfg .setatom s = .next t → t.A = s.mem.read s.I) ∧
    (∀ t, execWith cfg (.bios (cfg.ioCode .ioWrite) (cfg.ioCode .targetStdout)) s = .next t →
      t.out = s.out ++ [BitVec.ofNat 8 s.A.toNat]) ∧
    (i.mnemonic ∉ [.inca, .deca, .seta, .setatom] → ∀ t, execWith cfg i s = .next t → t.A = s.A) ∧
    (i.mnemonic ∈ [.seta, .setatom] → execWith cfg i { s with A := a } = execWith cfg i s) ∧
    (i.mnemonic ∉ [.inca, .deca, .seta, .setatom, .bios] →
      execWith cfg i { s with A := a } = mapNext (fun t => { t with A := a }) (execWith cfg i s)) ∧
    (i.mnemonic = .bios → a.toNat % 256 = s.A.toNat % 256 →
      execWith cfg i { s with A := a } = mapNext (fun t => { t with A := a }) (execWith cfg i s))

/-- R19: I is written by SETI and INCI alone, each with the value it writes, and read by INCI, SETATOM (as the memory
address) and CMPI (as the compared value) alone. -/
def Obligations.IndexWritersAndReaders : Prop :=
  ∀ (cfg : Config) (i : Instr) (s : State) (x : Word),
    (∀ n t, execWith cfg (.seti n) s = .next t → t.I = n) ∧
    (∀ t, execWith cfg .inci s = .next t → t.I = s.I + 1) ∧
    (∀ t, execWith cfg .setatom s = .next t → t.A = s.mem.read s.I) ∧
    (∀ n t, execWith cfg (.cmpi n) s = .next t → t.Z = decide (n = s.I)) ∧
    (i.mnemonic ∉ [.seti, .inci] → ∀ t, execWith cfg i s = .next t → t.I = s.I) ∧
    (i.mnemonic = .seti → execWith cfg i { s with I := x } = execWith cfg i s) ∧
    (i.mnemonic ∉ [.seti, .inci, .setatom, .cmpi] →
      execWith cfg i { s with I := x } = mapNext (fun t => { t with I := x }) (execWith cfg i s))

/-- R20: FlagZero is written by CMPI alone, on every execution, and read by JMPZ alone; no increment or decrement touches it;
it is false at reset. -/
def Obligations.FlagZeroWrittenByCmpiReadByJmpz : Prop :=
  State.reset.Z = false ∧
  ∀ (cfg : Config) (i : Instr) (s : State) (z : Bool),
    (∀ n t, execWith cfg (.cmpi n) s = .next t → t.Z = decide (n = s.I)) ∧
    (i.mnemonic ≠ .cmpi → ∀ t, execWith cfg i s = .next t → t.Z = s.Z) ∧
    (i.mnemonic = .cmpi → execWith cfg i { s with Z := z } = execWith cfg i s) ∧
    (i.mnemonic ∉ [.cmpi, .jmpz] →
      execWith cfg i { s with Z := z } = mapNext (fun t => { t with Z := z }) (execWith cfg i s))

/-- The stack changes only by JSR pushing one Word and RTS popping one, and only these two read it. -/
def Obligations.StackTouchedOnlyByJsrAndRts : Prop :=
  ∀ (cfg : Config) (i : Instr) (s t : State), execWith cfg i s = .next t →
    (i.mnemonic ∉ [.jsr, .rts] → t.stack = s.stack ∧
      ∀ st, execWith cfg i { s with stack := st } = .next { t with stack := st }) ∧
    (i.mnemonic = .jsr → t.stack = s.stack ++ [s.P + 2] ∨ (t.stack = s.stack ∧ cfg.stackDepth = some s.stack.length)) ∧
    (i.mnemonic = .rts → (∃ v, s.stack = t.stack ++ [v] ∧ t.P = v) ∨ (s.stack = [] ∧ t.stack = []))

/-- R17: P after each instruction, and after an unknown opcode under policy noop. -/
def Obligations.ProgramCounterAdvanceTable : Prop :=
  (∀ (cfg : Config) (i : Instr) (s t : State), execWith cfg i s = .next t →
    match i with
    | .halt => t.P = s.P + 1
    | .noop => t.P = s.P + 1
    | .inca => t.P = s.P + 1
    | .deca => t.P = s.P + 1
    | .setatom => t.P = s.P + 1
    | .inci => t.P = s.P + 1
    | .seta _ => t.P = s.P + 2
    | .seti _ => t.P = s.P + 2
    | .cmpi _ => t.P = s.P + 2
    | .jump x => t.P = x
    | .jmpz x => t.P = if s.Z = false then x else s.P + 2
    | .jsr x => t.P = if cfg.stackDepth = some s.stack.length then s.P + 1 else x
    | .rts => (∀ older v, s.stack = older ++ [v] → t.P = v) ∧
        (s.stack = [] → t.P = if cfg.rtsUnderflowPolicy = .continueZeroP then 0 else s.P + 1)
    | .bios _ _ => t.P = s.P + 3) ∧
  (∀ (cfg : Config) (s t : State), cfg.unknownOpcodePolicy = .noop → s.status = .running →
    (∀ m, cfg.opcode m ≠ s.mem.read s.P) → stepWith cfg s = .next t → t.P = s.P + 1)

/-- Bytes reach the sink only from BIOS write-to-stdout, one byte A[7:0], and from a continuing RTS underflow. -/
def Obligations.OutputOnlyFromBiosAndUnderflow : Prop :=
  ∀ (cfg : Config) (s t : State), stepWith cfg s = .next t →
    t.out = s.out ∨
    (s.mem.read s.P = cfg.opcode .bios ∧ s.mem.read (s.P + 1) = cfg.ioCode .ioWrite ∧
      s.mem.read (s.P + 2) = cfg.ioCode .targetStdout ∧ t.out = s.out ++ [BitVec.ofNat 8 s.A.toNat]) ∨
    (s.mem.read s.P = cfg.opcode .rts ∧ s.stack = [] ∧ cfg.rtsUnderflowPolicy ≠ .fault ∧
      ∃ report : List Byte, t.out = s.out ++ report)

/-- The status after a step: Halted exactly when the opcode is HALT's, never Ready, and Running unless HALT or a fault. -/
def Obligations.StatusAfterStep : Prop :=
  ∀ (cfg : Config) (s t : State), cfg.wf = true → stepWith cfg s = .next t →
    s.status = .running ∧ t.status ≠ .ready ∧ (t.status = .halted ↔ s.mem.read s.P = cfg.opcode .halt) ∧
    (t.status = .running ∨ t.status = .halted ∨ ∃ cause, t.status = .faulted cause s.P (s.mem.read s.P))

/-- R33: a step's outcome depends on memory only through the opcode Word, its operand Words (for a JSR that overflows, none)
and, for SETATOM, the Word at I. -/
def Obligations.StepReadsOnlyItsWords : Prop :=
  ∀ (cfg : Config) (s : State) (m : Memory), (∀ a ∈ s.readAddresses cfg, m.read a = s.mem.read a) →
    stepWith cfg { s with mem := m } = mapNext (fun t => { t with mem := m }) (stepWith cfg s)

/-- The invariant: canonical memory, bounded stack, stack entries that follow a JSR, a status that describes the last
instruction. Every step of every machine keeps it. -/
def Obligations.EveryStepKeepsInv : Prop :=
  ∀ (cfg : Config) (s t : State), Inv cfg s → stepWith cfg s = .next t → Inv cfg t

/-- The invariant holds right after reset. -/
def Obligations.InvHoldsAtReset : Prop :=
  ∀ cfg : Config, Inv cfg State.reset

/-! ### Faults -/

/-- R102: a fault leaves P at p + 1, records p and the opcode word, and changes nothing else. -/
def Obligations.FaultEntryIsPrecise : Prop :=
  ∀ (cfg : Config) (s t : State) (cause : FaultCause) (addr word : Word),
    stepWith cfg s = .next t → t.status = .faulted cause addr word →
    t = { s with P := s.P + 1, status := .faulted cause s.P (s.mem.read s.P) } ∧
    ∀ n, runLoop cfg n t = t

/-- R100: when each fault is raised, and that nothing else faults; the cause codes. -/
def Obligations.FaultCausesAndConditions : Prop :=
  FaultCause.unknownOpcode.code = 1 ∧ FaultCause.stackUnderflow.code = 2 ∧ FaultCause.stackOverflow.code = 3 ∧
  ∀ (cfg : Config) (s : State) (cause : FaultCause) (addr word : Word), cfg.wf = true → s.status = .running →
    ((∃ t, stepWith cfg s = .next t ∧ t.status = .faulted cause addr word) ↔
      addr = s.P ∧ word = s.mem.read s.P ∧
      match cause with
      | .unknownOpcode => (∀ m, cfg.opcode m ≠ word) ∧ cfg.unknownOpcodePolicy = .fault
      | .stackUnderflow => word = cfg.opcode .rts ∧ s.stack = [] ∧ cfg.rtsUnderflowPolicy = .fault
      | .stackOverflow => word = cfg.opcode .jsr ∧ cfg.stackDepth = some s.stack.length)

/-- R100: on a machine with policy `noop`, a continuing underflow policy and an unbounded stack, no run faults. -/
def Obligations.ContinuingMachineNeverFaults : Prop :=
  ∀ (cfg : Config) (n : Nat) (s : State), cfg.unknownOpcodePolicy = .noop → cfg.rtsUnderflowPolicy ≠ .fault →
    cfg.stackDepth = none → (∀ cause addr word, s.status ≠ .faulted cause addr word) → NoFault cfg n s

/-- R103: Faulted is sticky: no step, no effect of Run, no load leaves it; reset does. -/
def Obligations.FaultedIsStickyUntilReset : Prop :=
  ∀ (cfg : Config) (s : State) (cause : FaultCause) (addr word : Word), s.status = .faulted cause addr word →
    (∀ t, stepWith cfg s ≠ .next t) ∧ (∀ n, runLoop cfg n s = s) ∧ s.hostRun = some s ∧
    (∀ ws t, s.hostLoad ws = .ok t → t.status = s.status) ∧ s.hostReset.status = .ready

/-- R26: in EVERY Faulted state the host reads the record; Run and a load, of Words or of an image, keep it ("read-only to the
host"); reset clears it. A faulting step makes the record of its cause, its address and its opcode word, and there was none
before. What else the host reads (R122's "read state" row): P, A, I, FlagZero, S and the status, and nothing while Running. -/
def Obligations.FaultRecordReadableUntilReset : Prop :=
  ∀ s : State,
    (s.status = .running → s.hostRead = none) ∧
    (s.status ≠ .running → ∃ v, s.hostRead = some v ∧
      v.P = s.P ∧ v.A = s.A ∧ v.I = s.I ∧ v.FlagZero = s.Z ∧ v.S = s.stack ∧ v.status = s.status ∧
      (v.faultRecord ≠ none → ∃ cause addr word, s.status = .faulted cause addr word)) ∧
    (∀ cause addr word, s.status = .faulted cause addr word →
      (∃ v, s.hostRead = some v ∧ v.faultRecord = some { cause := cause, addr := addr, word := word }) ∧
      (∀ t, s.hostRun = some t → t.status = s.status) ∧
      (∀ ws t, s.hostLoad ws = .ok t → t.status = s.status) ∧
      (∀ file t, s.hostLoadImage file = .ok t → t.status = s.status) ∧
      s.hostReset.status.faultRecord = none) ∧
    (∀ (cfg : Config) (t : State) (cause : FaultCause) (addr word : Word),
      stepWith cfg s = .next t → t.status = .faulted cause addr word →
      (∃ v, t.hostRead = some v ∧
        v.faultRecord = some { cause := cause, addr := s.P, word := s.mem.read s.P }) ∧
      s.status.faultRecord = none)

/-- A core that is not Running takes no step: the model's step answers its own stop there (log entry 8). -/
def Obligations.NoStepUnlessRunning : Prop :=
  ∀ (cfg : Config) (s : State), s.status ≠ .running →
    step s = .fault .notRunning ∧ stepWith cfg s = .fault .notRunning ∧ ∀ n, runLoop cfg n s = s

/-! ### Reset, load, run -/

/-- R117: the reset values of all state; the host's reset gives them in any status. -/
def Obligations.ResetValuesOfAllState : Prop :=
  ∀ s : State, ∀ r ∈ [State.reset, s.hostReset],
    r.P = 0 ∧ r.A = 0 ∧ r.I = 0 ∧ r.Z = false ∧ r.stack = [] ∧ (∀ a, r.mem.read a = 0) ∧ r.status = .ready ∧
    r.status.faultRecord = none ∧ r.out = []

/-- R119: Run takes Ready or Halted to Running at the current P and changes nothing else; in Faulted it does nothing; in
Running it cannot be issued. -/
def Obligations.RunStartsReadyOrHalted : Prop :=
  ∀ s : State,
    (s.status = .ready ∨ s.status = .halted → s.hostRun = some { s with status := .running }) ∧
    (∀ cause addr word, s.status = .faulted cause addr word → s.hostRun = some s) ∧
    (s.status = .running → s.hostRun = none)

/-- R36: a load puts Word k at address k, keeps every other address, changes no register and no status, is the only thing
that gives memory a nonzero Word, and happens only while the core is not running. The premise on memory is the
canonical form (`Inv`). -/
def Obligations.LoadPlacesWordsFromZero : Prop :=
  ∀ (s : State) (ws : List Word),
    (s.status = .running → ∀ t, s.hostLoad ws ≠ .ok t) ∧
    (∀ cfg t, stepWith cfg s = .next t → ∀ a, t.mem.read a = s.mem.read a) ∧
    (∀ t, s.hostRun = some t → ∀ a, t.mem.read a = s.mem.read a) ∧ (∀ a, s.hostReset.mem.read a = 0) ∧
    (s.status ≠ .running → s.mem.wf = true → ws.length ≤ 2 ^ 64 → ∃ t, s.hostLoad ws = .ok t ∧
      (∀ (k : Nat) (h : k < ws.length), t.mem.read (BitVec.ofNat 64 k) = ws[k]) ∧
      (∀ a : Word, ws.length ≤ a.toNat → t.mem.read a = s.mem.read a) ∧
      t.P = s.P ∧ t.A = s.A ∧ t.I = s.I ∧ t.Z = s.Z ∧ t.stack = s.stack ∧ t.status = s.status ∧ t.out = s.out)

/-- R32: an unallocated address and one holding 0 are the same memory: canonical memories that read alike are equal, and a
load keeps the canonical form. -/
def Obligations.MemoryIsWhatItReads : Prop :=
  (∀ m m' : Memory, m.wf = true → m'.wf = true → (∀ a, m.read a = m'.read a) → m = m') ∧
  (∀ (s t : State) (ws : List Word), s.mem.wf = true → s.hostLoad ws = .ok t → t.mem.wf = true)

/-- §8's first property: a program of HALTs alone, loaded at 0 and run from reset, stops after one step with P = 1. -/
def Obligations.HaltOnlyProgramStopsAtOne : Prop :=
  ∀ (cfg : Config) (n k : Nat) (s t : State), cfg.wf = true → 1 ≤ n → 1 ≤ k →
    State.reset.hostLoad (List.replicate n (cfg.opcode .halt)) = .ok s → s.hostRun = some t →
    EndsHalted cfg k t ∧ runLoop cfg k t = { t with P := 1, status := .halted }

/-- A run ends exactly at Halted or Faulted, and its end does not move. -/
def Obligations.RunEndsOnlyHaltedOrFaulted : Prop :=
  ∀ (cfg : Config) (n k : Nat) (s : State), s.status = .running →
    (runLoop cfg n s).status ≠ .ready ∧
    ((runLoop cfg n s).status ≠ .running → runLoop cfg (n + k) s = runLoop cfg n s)

/-! ### Subroutines -/

/-- §8: a subroutine whose body neither transfers control nor stops returns to the instruction right after the JSR, with the
stack as before; memory is unchanged. -/
def Obligations.SubroutineReturnsAfterItsCall : Prop :=
  ∀ (cfg : Config) (s : State) (t : Word) (body : List Instr), cfg.wf = true → s.status = .running →
    cfg.stackDepth ≠ some s.stack.length → (∀ i ∈ body, IsStraightLine i) →
    WordsAt s.mem s.P [cfg.opcode .jsr, t] → WordsAt s.mem t (encodeAll cfg body ++ [cfg.opcode .rts]) →
    (runLoop cfg (body.length + 2) s).P = s.P + 2 ∧ (runLoop cfg (body.length + 2) s).stack = s.stack ∧
    (runLoop cfg (body.length + 2) s).status = .running ∧ (runLoop cfg (body.length + 2) s).mem = s.mem

/-! ### The toolchain -/

/-- R70: decoding an encoded image gives the Words back, the empty sequence included. -/
def Obligations.ImageRoundTrip : Prop :=
  ∀ ws : List Word, decodeImage (encodeImage ws) = .ok ws

/-- R68: byte 8k + j of the image is bits 63 - 8j : 56 - 8j of Word k, and the image is nothing but these bytes. -/
def Obligations.ImageBytesAreBigEndian : Prop :=
  ∀ ws : List Word, (encodeImage ws).length = 8 * ws.length ∧
    ∀ (k j : Nat) (h : k < ws.length), j < 8 →
      (encodeImage ws)[8 * k + j]? = some (BitVec.ofNat 8 (ws[k].toNat >>> (56 - 8 * j)))

/-- R69: the decoder fails exactly on a trailing partial group; otherwise group k becomes the sum of its bytes weighted by
2^(8(7-j)). -/
def Obligations.ImageDecodeSumsGroups : Prop :=
  ∀ bytes : List Byte,
    (bytes.length % 8 ≠ 0 → decodeImage bytes = .error .truncatedInput) ∧
    (bytes.length % 8 = 0 → ∃ ws, decodeImage bytes = .ok ws ∧ 8 * ws.length = bytes.length ∧
      ∀ (k : Nat) (h : k < ws.length),
        ws[k].toNat = ((List.range 8).map fun j => (bytes.getD (8 * k + j) 0).toNat * 2 ^ (8 * (7 - j))).sum)

/-- R71, R37: loading an image file is loading its Words; a missing file and a truncated image reach the caller. -/
def Obligations.ImageLoadIsWordLoad : Prop :=
  ∀ s : State, (∀ ws : List Word, s.hostLoadImage (some (encodeImage ws)) = s.hostLoad ws) ∧
    s.hostLoadImage none = .error .fileNotFound ∧
    ∀ bytes : List Byte, bytes.length % 8 ≠ 0 → s.hostLoadImage (some bytes) = .error .truncatedInput

/-- R54: tokens are not empty, hold no white space, and leave out nothing else of the text; white space separates tokens; and
a run is maximal: a nonempty text without white space is one token. -/
def Obligations.TokensAreTheNonSpaceRuns : Prop :=
  ∀ isSpace : Char → Bool,
    (∀ text : List Char, (tokenise isSpace text).flatten = text.filter (fun c => !isSpace c) ∧
      ∀ tok ∈ tokenise isSpace text, tok ≠ [] ∧ ∀ c ∈ tok, isSpace c = false) ∧
    (∀ (a b : List Char) (c : Char), isSpace c = true →
      tokenise isSpace (a ++ [c] ++ b) = tokenise isSpace a ++ tokenise isSpace b) ∧
    (∀ text : List Char, text ≠ [] → (∀ c ∈ text, isSpace c = false) → tokenise isSpace text = [text])

/-- R55, R67: instructions written with decimal operands assemble to exactly the Words the core's decoder reads. -/
def Obligations.AssembledInstructionsAreTheirEncodings : Prop :=
  ∀ (cfg : Config) (asm : AsmConfig) (is : List Instr), asm.wf = true →
    assembleTokens cfg asm (is.flatMap instrTokens) = .ok (encodeAll cfg is)

/-- R61, R63, R64: a forward label reference assembles to the label's position in the output Words; for a position of 2^64 or
more, modulo 2^64, which is the model's choice (DESIGN CHOICE, log entry 22). -/
def Obligations.ForwardReferenceIsLabelPosition : Prop :=
  ∀ (cfg : Config) (asm : AsmConfig) (name : Token) (before after : List Instr), asm.wf = true → IsReference asm name →
    assembleTokens cfg asm
      ([spelling .jump, name] ++ before.flatMap instrTokens ++ [name ++ [':']] ++ after.flatMap instrTokens) =
    .ok ([cfg.opcode .jump, BitVec.ofNat 64 (2 + (encodeAll cfg before).length)] ++ encodeAll cfg before ++ encodeAll cfg after)

/-- R58, R65: two definitions of one label name: no program is returned. -/
def Obligations.DuplicateLabelAborts : Prop :=
  ∀ (cfg : Config) (asm : AsmConfig) (name : Token) (a b c : List Token),
    ∃ e, assembleTokens cfg asm (a ++ [name ++ [':']] ++ b ++ [name ++ [':']] ++ c) = .error e

/-- R63, R65: a program is returned only when every referenced name has a definition in the text. -/
def Obligations.AssembledReferencesAreDefined : Prop :=
  ∀ (cfg : Config) (asm : AsmConfig) (toks : List Token) (ws : List Word), assembleTokens cfg asm toks = .ok ws →
    ∀ tok ∈ toks, IsReference asm tok → tok ++ [':'] ∈ toks
end

