-- ==== Sys2Proof/Laws/Decode.lean ====
section
/-! SUPPORT. What the decoder's parts can do, each said once. -/

namespace Sys2Proof

@[simp] theorem Instr.mnemonic_halt : Instr.halt.mnemonic = .halt := rfl
@[simp] theorem Instr.mnemonic_noop : Instr.noop.mnemonic = .noop := rfl
@[simp] theorem Instr.mnemonic_inca : Instr.inca.mnemonic = .inca := rfl
@[simp] theorem Instr.mnemonic_deca : Instr.deca.mnemonic = .deca := rfl
@[simp] theorem Instr.mnemonic_seta (imm : Word) : (Instr.seta imm).mnemonic = .seta := rfl
@[simp] theorem Instr.mnemonic_seti (imm : Word) : (Instr.seti imm).mnemonic = .seti := rfl
@[simp] theorem Instr.mnemonic_inci : Instr.inci.mnemonic = .inci := rfl
@[simp] theorem Instr.mnemonic_cmpi (imm : Word) : (Instr.cmpi imm).mnemonic = .cmpi := rfl
@[simp] theorem Instr.mnemonic_jump (target : Word) : (Instr.jump target).mnemonic = .jump := rfl
@[simp] theorem Instr.mnemonic_jmpz (target : Word) : (Instr.jmpz target).mnemonic = .jmpz := rfl
@[simp] theorem Instr.mnemonic_setatom : Instr.setatom.mnemonic = .setatom := rfl
@[simp] theorem Instr.mnemonic_jsr (target : Word) : (Instr.jsr target).mnemonic = .jsr := rfl
@[simp] theorem Instr.mnemonic_rts : Instr.rts.mnemonic = .rts := rfl
@[simp] theorem Instr.mnemonic_bios (direction target : Word) : (Instr.bios direction target).mnemonic = .bios := rfl

@[simp] theorem Instr.operands_halt : Instr.halt.operands = [] := rfl
@[simp] theorem Instr.operands_noop : Instr.noop.operands = [] := rfl
@[simp] theorem Instr.operands_inca : Instr.inca.operands = [] := rfl
@[simp] theorem Instr.operands_deca : Instr.deca.operands = [] := rfl
@[simp] theorem Instr.operands_seta (imm : Word) : (Instr.seta imm).operands = [imm] := rfl
@[simp] theorem Instr.operands_seti (imm : Word) : (Instr.seti imm).operands = [imm] := rfl
@[simp] theorem Instr.operands_inci : Instr.inci.operands = [] := rfl
@[simp] theorem Instr.operands_cmpi (imm : Word) : (Instr.cmpi imm).operands = [imm] := rfl
@[simp] theorem Instr.operands_jump (target : Word) : (Instr.jump target).operands = [target] := rfl
@[simp] theorem Instr.operands_jmpz (target : Word) : (Instr.jmpz target).operands = [target] := rfl
@[simp] theorem Instr.operands_setatom : Instr.setatom.operands = [] := rfl
@[simp] theorem Instr.operands_jsr (target : Word) : (Instr.jsr target).operands = [target] := rfl
@[simp] theorem Instr.operands_rts : Instr.rts.operands = [] := rfl
@[simp] theorem Instr.operands_bios (direction target : Word) : (Instr.bios direction target).operands = [direction, target] := rfl

theorem Mnemonic.mem_all (m : Mnemonic) : m ∈ Mnemonic.all := by cases m <;> decide

/-- R50 as an injection. -/
theorem Config.opcode_injective {cfg : Config} (h : cfg.wf = true) : Function.Injective cfg.opcode := by
  simp only [Config.wf, Config.opcodesDistinct, Bool.and_eq_true, decide_eq_true_eq] at h
  intro a b hab
  exact List.inj_on_of_nodup_map h.1.1.1 (Mnemonic.mem_all a) (Mnemonic.mem_all b) hab

/-- A Word the decoder takes for `m` is OPCODE(m). -/
theorem Config.opcode_of_mnemonicOf {cfg : Config} {w : Word} {m : Mnemonic} (h : cfg.mnemonicOf w = some m) :
    cfg.opcode m = w := by
  simpa using List.find?_some h

/-- R53: unknown is exactly "outside the image of OPCODE". -/
theorem Config.mnemonicOf_eq_none {cfg : Config} {w : Word} : cfg.mnemonicOf w = none ↔ ∀ m, cfg.opcode m ≠ w := by
  simp only [Config.mnemonicOf, List.find?_eq_none, beq_iff_eq]
  exact ⟨fun h m => h m (Mnemonic.mem_all m), fun h m _ => h m⟩

/-- R51: OPCODE(m) is taken for `m`. -/
theorem Config.mnemonicOf_opcode {cfg : Config} (h : cfg.wf = true) (m : Mnemonic) :
    cfg.mnemonicOf (cfg.opcode m) = some m := by
  cases hm : cfg.mnemonicOf (cfg.opcode m) with
  | none => exact absurd rfl (Config.mnemonicOf_eq_none.mp hm m)
  | some m' => rw [Config.opcode_injective h (Config.opcode_of_mnemonicOf hm)]

theorem Config.mnemonicOf_eq_some {cfg : Config} (h : cfg.wf = true) {w : Word} {m : Mnemonic} :
    cfg.mnemonicOf w = some m ↔ cfg.opcode m = w :=
  ⟨Config.opcode_of_mnemonicOf, fun e => e ▸ Config.mnemonicOf_opcode h m⟩

theorem Config.wf_default : Config.default.wf = true := by decide

/-- What `ofOperands` can answer: an instruction of that mnemonic, whose operands are the Words it took. -/
theorem Instr.ofOperands_eq_some {m : Mnemonic} {ws rest : List Word} {i : Instr}
    (h : Instr.ofOperands m ws = some (i, rest)) : i.mnemonic = m ∧ ws = i.operands ++ rest := by
  cases m <;> simp only [Instr.ofOperands] at h
  case seta | seti | cmpi | jump | jmpz | jsr =>
    cases ws with
    | nil => simp [takeOne] at h
    | cons w ws => simp only [takeOne, Option.some.injEq, Prod.mk.injEq] at h; obtain ⟨rfl, rfl⟩ := h; exact ⟨rfl, rfl⟩
  case bios =>
    match ws with
    | [] => simp [takeTwo] at h
    | [_] => simp [takeTwo] at h
    | w :: w' :: ws => simp only [takeTwo, Option.some.injEq, Prod.mk.injEq] at h; obtain ⟨rfl, rfl⟩ := h; exact ⟨rfl, rfl⟩
  all_goals
    simp only [Option.some.injEq, Prod.mk.injEq] at h
    obtain ⟨rfl, rfl⟩ := h
    exact ⟨rfl, rfl⟩

/-- R48: the operands of an instruction are as many as its mnemonic's operand count. -/
theorem Instr.length_operands (i : Instr) : i.operands.length = i.mnemonic.operandCount := by cases i <;> rfl

/-- With as many Words as the operand count, `ofOperands` finds them all. -/
theorem Instr.ofOperands_isSome (m : Mnemonic) (ws : List Word) (h : m.operandCount ≤ ws.length) :
    ∃ r, Instr.ofOperands m ws = some r := by
  cases m <;> simp only [Mnemonic.operandCount] at h <;>
    first
    | exact ⟨_, rfl⟩
    | (match ws, h with
       | w :: ws, _ => exact ⟨_, rfl⟩)
    | (match ws, h with
       | w :: w' :: ws, _ => exact ⟨_, rfl⟩)

end Sys2Proof
end

