-- ==== Sys2Proof/Laws/Memory.lean ====
section
/-! SUPPORT. The laws of memory: a read after a write, and the canonical form. -/

namespace Sys2Proof.Machine

theorem lookupCell_setCell (cells : List (Nat × Word)) (a b : Nat) (v : Word) (h : cellsWf cells = true) :
    lookupCell (setCell cells a v) b = if a = b then v else lookupCell cells b := by
  induction cells with
  | nil => by_cases hv : v = Memory.unlisted <;> simp [setCell, lookupCell, hv]
  | cons c rest ih =>
    obtain ⟨k, x⟩ := c
    simp only [cellsWf, Bool.and_eq_true, List.all_eq_true, decide_eq_true_eq] at h
    obtain ⟨⟨⟨-, -⟩, hk⟩, hr⟩ := h
    have hnone : ∀ (l : List (Nat × Word)) (n : Nat), (∀ c ∈ l, n < c.1) → lookupCell l n = Memory.unlisted := by
      intro l n hl
      induction l with
      | nil => rfl
      | cons d l ihl =>
        have hd := hl d List.mem_cons_self
        simp only [lookupCell, if_neg (show ¬ d.1 = n by omega)]
        exact ihl fun c hc => hl c (List.mem_cons_of_mem _ hc)
    simp only [setCell]
    split
    · rename_i hak
      split
      · rename_i hv
        by_cases hab : a = b
        · subst hab
          simp only [lookupCell, if_neg (show ¬ k = a by omega), if_true, hv]
          exact hnone rest a fun c hc => Nat.lt_trans hak (hk c hc)
        · simp [hab]
      · simp [lookupCell]
    · split
      · rename_i hak
        subst hak
        split
        · rename_i hv
          by_cases hab : a = b
          · subst hab
            simp only [if_true, hv]
            exact hnone rest a hk
          · simp [lookupCell, hab]
        · by_cases hab : a = b <;> simp [lookupCell, hab]
      · rename_i hak
        simp only [lookupCell, ih hr]
        by_cases hkb : k = b
        · simp [hkb, show ¬ a = b by omega]
        · simp [hkb]

theorem setCell_above (cells : List (Nat × Word)) (n a : Nat) (v : Word) (hn : n < a) (h : ∀ c ∈ cells, n < c.1) :
    ∀ c ∈ setCell cells a v, n < c.1 := by
  induction cells with
  | nil => by_cases hv : v = Memory.unlisted <;> simp [setCell, hv, hn]
  | cons c rest ih =>
    obtain ⟨k, x⟩ := c
    have hk := h (k, x) List.mem_cons_self
    have hr : ∀ c ∈ rest, n < c.1 := fun c hc => h c (List.mem_cons_of_mem _ hc)
    simp only [setCell]
    split_ifs <;> intro c hc <;> try simp only [List.mem_cons] at hc
    all_goals first
      | exact hr c hc
      | exact ih hr c hc
      | (rcases hc with rfl | rfl | hc <;> first | exact hn | exact hk | exact hr c hc)
      | (rcases hc with rfl | hc <;> first | exact hn | exact hk | exact hr c hc | exact ih hr c hc)

theorem cellsWf_setCell (cells : List (Nat × Word)) (a : Nat) (v : Word) (ha : a < 2 ^ 64) (h : cellsWf cells = true) :
    cellsWf (setCell cells a v) = true := by
  induction cells with
  | nil => by_cases hv : v = Memory.unlisted <;> simp_all [setCell, cellsWf]
  | cons c rest ih =>
    obtain ⟨k, x⟩ := c
    simp only [cellsWf, Bool.and_eq_true, List.all_eq_true, decide_eq_true_eq] at h
    obtain ⟨⟨⟨hk64, hx⟩, hk⟩, hr⟩ := h
    simp only [setCell]
    split
    · rename_i hak
      split
      · simp only [cellsWf, Bool.and_eq_true, List.all_eq_true, decide_eq_true_eq]
        exact ⟨⟨⟨hk64, hx⟩, hk⟩, hr⟩
      · rename_i hv
        simp only [cellsWf, Bool.and_eq_true, List.all_eq_true, decide_eq_true_eq]
        refine ⟨⟨⟨ha, hv⟩, ?_⟩, ⟨⟨hk64, hx⟩, hk⟩, hr⟩
        intro c hc
        rcases List.mem_cons.mp hc with rfl | hc
        · exact hak
        · exact Nat.lt_trans hak (hk c hc)
    · split
      · rename_i hak
        subst hak
        split
        · exact hr
        · rename_i hv
          simp only [cellsWf, Bool.and_eq_true, List.all_eq_true, decide_eq_true_eq]
          exact ⟨⟨⟨ha, hv⟩, hk⟩, hr⟩
      · rename_i hlt hne
        simp only [cellsWf, Bool.and_eq_true, List.all_eq_true, decide_eq_true_eq]
        exact ⟨⟨⟨hk64, hx⟩, setCell_above rest k a v (by omega) hk⟩, ih hr⟩

/-- R32: a read after a write. -/
theorem Memory.read_write (m : Memory) (a b v : Word) (h : m.wf = true) :
    (m.write a v).read b = if a = b then v else m.read b := by
  simp only [Memory.read, Memory.write, lookupCell_setCell m.cells _ _ v h]
  by_cases hab : a = b
  · simp [hab]
  · simp [hab, show ¬ a.toNat = b.toNat from fun he => hab (BitVec.eq_of_toNat_eq he)]

/-- A write keeps the canonical form. -/
theorem Memory.wf_write (m : Memory) (a v : Word) (h : m.wf = true) : (m.write a v).wf = true :=
  cellsWf_setCell m.cells _ v a.isLt h

/-- Writing consecutive Words keeps the canonical form. -/
theorem Memory.wf_writeWords (ws : List Word) (m : Memory) (a : Word) (h : m.wf = true) :
    (m.writeWords a ws).wf = true := by
  induction ws generalizing m a with
  | nil => exact h
  | cons w ws ih => exact ih (m.write a w) (a + 1) (Memory.wf_write m a w h)

/-- Reading after consecutive writes: the Word at that distance from the base, or what was there before. -/
theorem Memory.read_writeWords (ws : List Word) (m : Memory) (a b : Word) (h : m.wf = true) (hl : ws.length ≤ 2 ^ 64) :
    (m.writeWords a ws).read b = (ws[(b - a).toNat]?).getD (m.read b) := by
  induction ws generalizing m a with
  | nil => simp [Memory.writeWords]
  | cons w ws ih =>
    simp only [List.length_cons] at hl
    rw [Memory.writeWords, ih (m.write a w) (a + 1) (Memory.wf_write m a w h) (by omega), Memory.read_write m a b w h]
    by_cases hab : a = b
    · subst hab
      have hlast : (a - (a + 1)).toNat = 2 ^ 64 - 1 := by
        have := a.isLt
        simp only [BitVec.toNat_sub, BitVec.toNat_add, show (1 : Word).toNat = 1 from rfl]
        omega
      rw [hlast, List.getElem?_eq_none (show ws.length ≤ 2 ^ 64 - 1 by omega)]
      simp
    · have : (b - a).toNat = (b - (a + 1)).toNat + 1 := by
        have : a.toNat ≠ b.toNat := fun e => hab (BitVec.eq_of_toNat_eq e)
        bv_omega
      simp [this, hab]

/-- The empty memory reads as unlisted everywhere and is canonical. -/
@[simp] theorem Memory.read_empty (a : Word) : ({ cells := [] } : Memory).read a = 0 := rfl

@[simp] theorem Memory.wf_empty : ({ cells := [] } : Memory).wf = true := rfl

/-- Reset memory is canonical. -/
theorem Memory.wf_reset : State.reset.mem.wf = true := rfl

end Sys2Proof.Machine
end

