-- ==== Sys2Proof/Laws/State.lean ====
section
/-! SUPPORT. One lemma per field of State per update, so that no proof unfolds a record update. -/

namespace Sys2Proof.Machine

@[simp] theorem State.setP_P (s : State) (v : Word) : (s.setP v).P = v := rfl
@[simp] theorem State.setP_A (s : State) (v : Word) : (s.setP v).A = s.A := rfl
@[simp] theorem State.setP_I (s : State) (v : Word) : (s.setP v).I = s.I := rfl
@[simp] theorem State.setP_Z (s : State) (v : Word) : (s.setP v).Z = s.Z := rfl
@[simp] theorem State.setP_stack (s : State) (v : Word) : (s.setP v).stack = s.stack := rfl
@[simp] theorem State.setP_mem (s : State) (v : Word) : (s.setP v).mem = s.mem := rfl
@[simp] theorem State.setP_status (s : State) (v : Word) : (s.setP v).status = s.status := rfl
@[simp] theorem State.setP_out (s : State) (v : Word) : (s.setP v).out = s.out := rfl
@[simp] theorem State.setP_draws (s : State) (v : Word) : (s.setP v).draws = s.draws := rfl

@[simp] theorem State.setA_P (s : State) (v : Word) : (s.setA v).P = s.P := rfl
@[simp] theorem State.setA_A (s : State) (v : Word) : (s.setA v).A = v := rfl
@[simp] theorem State.setA_I (s : State) (v : Word) : (s.setA v).I = s.I := rfl
@[simp] theorem State.setA_Z (s : State) (v : Word) : (s.setA v).Z = s.Z := rfl
@[simp] theorem State.setA_stack (s : State) (v : Word) : (s.setA v).stack = s.stack := rfl
@[simp] theorem State.setA_mem (s : State) (v : Word) : (s.setA v).mem = s.mem := rfl
@[simp] theorem State.setA_status (s : State) (v : Word) : (s.setA v).status = s.status := rfl
@[simp] theorem State.setA_out (s : State) (v : Word) : (s.setA v).out = s.out := rfl
@[simp] theorem State.setA_draws (s : State) (v : Word) : (s.setA v).draws = s.draws := rfl

@[simp] theorem State.setI_P (s : State) (v : Word) : (s.setI v).P = s.P := rfl
@[simp] theorem State.setI_A (s : State) (v : Word) : (s.setI v).A = s.A := rfl
@[simp] theorem State.setI_I (s : State) (v : Word) : (s.setI v).I = v := rfl
@[simp] theorem State.setI_Z (s : State) (v : Word) : (s.setI v).Z = s.Z := rfl
@[simp] theorem State.setI_stack (s : State) (v : Word) : (s.setI v).stack = s.stack := rfl
@[simp] theorem State.setI_mem (s : State) (v : Word) : (s.setI v).mem = s.mem := rfl
@[simp] theorem State.setI_status (s : State) (v : Word) : (s.setI v).status = s.status := rfl
@[simp] theorem State.setI_out (s : State) (v : Word) : (s.setI v).out = s.out := rfl
@[simp] theorem State.setI_draws (s : State) (v : Word) : (s.setI v).draws = s.draws := rfl

@[simp] theorem State.setZ_P (s : State) (v : Bool) : (s.setZ v).P = s.P := rfl
@[simp] theorem State.setZ_A (s : State) (v : Bool) : (s.setZ v).A = s.A := rfl
@[simp] theorem State.setZ_I (s : State) (v : Bool) : (s.setZ v).I = s.I := rfl
@[simp] theorem State.setZ_Z (s : State) (v : Bool) : (s.setZ v).Z = v := rfl
@[simp] theorem State.setZ_stack (s : State) (v : Bool) : (s.setZ v).stack = s.stack := rfl
@[simp] theorem State.setZ_mem (s : State) (v : Bool) : (s.setZ v).mem = s.mem := rfl
@[simp] theorem State.setZ_status (s : State) (v : Bool) : (s.setZ v).status = s.status := rfl
@[simp] theorem State.setZ_out (s : State) (v : Bool) : (s.setZ v).out = s.out := rfl
@[simp] theorem State.setZ_draws (s : State) (v : Bool) : (s.setZ v).draws = s.draws := rfl

@[simp] theorem State.setStatus_P (s : State) (v : Status) : (s.setStatus v).P = s.P := rfl
@[simp] theorem State.setStatus_A (s : State) (v : Status) : (s.setStatus v).A = s.A := rfl
@[simp] theorem State.setStatus_I (s : State) (v : Status) : (s.setStatus v).I = s.I := rfl
@[simp] theorem State.setStatus_Z (s : State) (v : Status) : (s.setStatus v).Z = s.Z := rfl
@[simp] theorem State.setStatus_stack (s : State) (v : Status) : (s.setStatus v).stack = s.stack := rfl
@[simp] theorem State.setStatus_mem (s : State) (v : Status) : (s.setStatus v).mem = s.mem := rfl
@[simp] theorem State.setStatus_status (s : State) (v : Status) : (s.setStatus v).status = v := rfl
@[simp] theorem State.setStatus_out (s : State) (v : Status) : (s.setStatus v).out = s.out := rfl
@[simp] theorem State.setStatus_draws (s : State) (v : Status) : (s.setStatus v).draws = s.draws := rfl

@[simp] theorem State.push_P (s : State) (v : Word) : (s.push v).P = s.P := rfl
@[simp] theorem State.push_A (s : State) (v : Word) : (s.push v).A = s.A := rfl
@[simp] theorem State.push_I (s : State) (v : Word) : (s.push v).I = s.I := rfl
@[simp] theorem State.push_Z (s : State) (v : Word) : (s.push v).Z = s.Z := rfl
@[simp] theorem State.push_stack (s : State) (v : Word) : (s.push v).stack = s.stack ++ [v] := rfl
@[simp] theorem State.push_mem (s : State) (v : Word) : (s.push v).mem = s.mem := rfl
@[simp] theorem State.push_status (s : State) (v : Word) : (s.push v).status = s.status := rfl
@[simp] theorem State.push_out (s : State) (v : Word) : (s.push v).out = s.out := rfl
@[simp] theorem State.push_draws (s : State) (v : Word) : (s.push v).draws = s.draws := rfl

@[simp] theorem State.emit_P (s : State) (b : Byte) : (s.emit b).P = s.P := rfl
@[simp] theorem State.emit_A (s : State) (b : Byte) : (s.emit b).A = s.A := rfl
@[simp] theorem State.emit_I (s : State) (b : Byte) : (s.emit b).I = s.I := rfl
@[simp] theorem State.emit_Z (s : State) (b : Byte) : (s.emit b).Z = s.Z := rfl
@[simp] theorem State.emit_stack (s : State) (b : Byte) : (s.emit b).stack = s.stack := rfl
@[simp] theorem State.emit_mem (s : State) (b : Byte) : (s.emit b).mem = s.mem := rfl
@[simp] theorem State.emit_status (s : State) (b : Byte) : (s.emit b).status = s.status := rfl
@[simp] theorem State.emit_out (s : State) (b : Byte) : (s.emit b).out = s.out ++ [b] := rfl
@[simp] theorem State.emit_draws (s : State) (b : Byte) : (s.emit b).draws = s.draws := rfl

@[simp] theorem State.emitReport_P (s : State) : (s.emitReport).P = s.P := rfl
@[simp] theorem State.emitReport_A (s : State) : (s.emitReport).A = s.A := rfl
@[simp] theorem State.emitReport_I (s : State) : (s.emitReport).I = s.I := rfl
@[simp] theorem State.emitReport_Z (s : State) : (s.emitReport).Z = s.Z := rfl
@[simp] theorem State.emitReport_stack (s : State) : (s.emitReport).stack = s.stack := rfl
@[simp] theorem State.emitReport_mem (s : State) : (s.emitReport).mem = s.mem := rfl
@[simp] theorem State.emitReport_status (s : State) : (s.emitReport).status = s.status := rfl
@[simp] theorem State.emitReport_out (s : State) : (s.emitReport).out = s.out ++ Config.underflowReport s.draws := rfl
@[simp] theorem State.emitReport_draws (s : State) : (s.emitReport).draws = s.draws + 1 := rfl

@[simp] theorem State.stop_P (s : State) : (s.stop).P = s.P := rfl
@[simp] theorem State.stop_A (s : State) : (s.stop).A = s.A := rfl
@[simp] theorem State.stop_I (s : State) : (s.stop).I = s.I := rfl
@[simp] theorem State.stop_Z (s : State) : (s.stop).Z = s.Z := rfl
@[simp] theorem State.stop_stack (s : State) : (s.stop).stack = s.stack := rfl
@[simp] theorem State.stop_mem (s : State) : (s.stop).mem = s.mem := rfl
@[simp] theorem State.stop_status (s : State) : (s.stop).status = Status.halted := rfl
@[simp] theorem State.stop_out (s : State) : (s.stop).out = s.out := rfl
@[simp] theorem State.stop_draws (s : State) : (s.stop).draws = s.draws := rfl

@[simp] theorem State.advance_P (s : State) : (s.advance).P = s.P + 1 := rfl
@[simp] theorem State.advance_A (s : State) : (s.advance).A = s.A := rfl
@[simp] theorem State.advance_I (s : State) : (s.advance).I = s.I := rfl
@[simp] theorem State.advance_Z (s : State) : (s.advance).Z = s.Z := rfl
@[simp] theorem State.advance_stack (s : State) : (s.advance).stack = s.stack := rfl
@[simp] theorem State.advance_mem (s : State) : (s.advance).mem = s.mem := rfl
@[simp] theorem State.advance_status (s : State) : (s.advance).status = s.status := rfl
@[simp] theorem State.advance_out (s : State) : (s.advance).out = s.out := rfl
@[simp] theorem State.advance_draws (s : State) : (s.advance).draws = s.draws := rfl

@[simp] theorem State.raiseFault_P (s : State) (c : FaultCause) : (s.raiseFault c).P = s.P + 1 := rfl
@[simp] theorem State.raiseFault_A (s : State) (c : FaultCause) : (s.raiseFault c).A = s.A := rfl
@[simp] theorem State.raiseFault_I (s : State) (c : FaultCause) : (s.raiseFault c).I = s.I := rfl
@[simp] theorem State.raiseFault_Z (s : State) (c : FaultCause) : (s.raiseFault c).Z = s.Z := rfl
@[simp] theorem State.raiseFault_stack (s : State) (c : FaultCause) : (s.raiseFault c).stack = s.stack := rfl
@[simp] theorem State.raiseFault_mem (s : State) (c : FaultCause) : (s.raiseFault c).mem = s.mem := rfl
@[simp] theorem State.raiseFault_status (s : State) (c : FaultCause) : (s.raiseFault c).status = Status.faulted c s.P (s.mem.read s.P) := rfl
@[simp] theorem State.raiseFault_out (s : State) (c : FaultCause) : (s.raiseFault c).out = s.out := rfl
@[simp] theorem State.raiseFault_draws (s : State) (c : FaultCause) : (s.raiseFault c).draws = s.draws := rfl

@[simp] theorem State.placeAtP_P (s : State) (ws : List Word) : (s.placeAtP ws).P = s.P := rfl
@[simp] theorem State.placeAtP_A (s : State) (ws : List Word) : (s.placeAtP ws).A = s.A := rfl
@[simp] theorem State.placeAtP_I (s : State) (ws : List Word) : (s.placeAtP ws).I = s.I := rfl
@[simp] theorem State.placeAtP_Z (s : State) (ws : List Word) : (s.placeAtP ws).Z = s.Z := rfl
@[simp] theorem State.placeAtP_stack (s : State) (ws : List Word) : (s.placeAtP ws).stack = s.stack := rfl
@[simp] theorem State.placeAtP_mem (s : State) (ws : List Word) : (s.placeAtP ws).mem = s.mem.writeWords s.P ws := rfl
@[simp] theorem State.placeAtP_status (s : State) (ws : List Word) : (s.placeAtP ws).status = Status.running := rfl
@[simp] theorem State.placeAtP_out (s : State) (ws : List Word) : (s.placeAtP ws).out = s.out := rfl
@[simp] theorem State.placeAtP_draws (s : State) (ws : List Word) : (s.placeAtP ws).draws = s.draws := rfl

/-- P after the Words of each format (R17). -/
theorem State.pastF0_eq (s : State) : s.pastF0 = { s with P := s.P + 1 } := rfl

theorem State.pastF1_eq (s : State) : s.pastF1 = { s with P := s.P + 2 } := by
  simp [State.pastF1, State.advance, State.setP, BitVec.add_assoc]

theorem State.pastF2_eq (s : State) : s.pastF2 = { s with P := s.P + 3 } := by
  simp [State.pastF2, State.advance, State.setP, BitVec.add_assoc]

@[simp] theorem State.pastF0_P (s : State) : s.pastF0.P = s.P + 1 := rfl
@[simp] theorem State.pastF0_A (s : State) : s.pastF0.A = s.A := rfl
@[simp] theorem State.pastF0_I (s : State) : s.pastF0.I = s.I := rfl
@[simp] theorem State.pastF0_Z (s : State) : s.pastF0.Z = s.Z := rfl
@[simp] theorem State.pastF0_stack (s : State) : s.pastF0.stack = s.stack := rfl
@[simp] theorem State.pastF0_mem (s : State) : s.pastF0.mem = s.mem := rfl
@[simp] theorem State.pastF0_status (s : State) : s.pastF0.status = s.status := rfl
@[simp] theorem State.pastF0_out (s : State) : s.pastF0.out = s.out := rfl
@[simp] theorem State.pastF0_draws (s : State) : s.pastF0.draws = s.draws := rfl

@[simp] theorem State.pastF1_P (s : State) : s.pastF1.P = s.P + 2 := by rw [State.pastF1_eq]
@[simp] theorem State.pastF1_A (s : State) : s.pastF1.A = s.A := rfl
@[simp] theorem State.pastF1_I (s : State) : s.pastF1.I = s.I := rfl
@[simp] theorem State.pastF1_Z (s : State) : s.pastF1.Z = s.Z := rfl
@[simp] theorem State.pastF1_stack (s : State) : s.pastF1.stack = s.stack := rfl
@[simp] theorem State.pastF1_mem (s : State) : s.pastF1.mem = s.mem := rfl
@[simp] theorem State.pastF1_status (s : State) : s.pastF1.status = s.status := rfl
@[simp] theorem State.pastF1_out (s : State) : s.pastF1.out = s.out := rfl
@[simp] theorem State.pastF1_draws (s : State) : s.pastF1.draws = s.draws := rfl

@[simp] theorem State.pastF2_P (s : State) : s.pastF2.P = s.P + 3 := by rw [State.pastF2_eq]
@[simp] theorem State.pastF2_A (s : State) : s.pastF2.A = s.A := rfl
@[simp] theorem State.pastF2_I (s : State) : s.pastF2.I = s.I := rfl
@[simp] theorem State.pastF2_Z (s : State) : s.pastF2.Z = s.Z := rfl
@[simp] theorem State.pastF2_stack (s : State) : s.pastF2.stack = s.stack := rfl
@[simp] theorem State.pastF2_mem (s : State) : s.pastF2.mem = s.mem := rfl
@[simp] theorem State.pastF2_status (s : State) : s.pastF2.status = s.status := rfl
@[simp] theorem State.pastF2_out (s : State) : s.pastF2.out = s.out := rfl
@[simp] theorem State.pastF2_draws (s : State) : s.pastF2.draws = s.draws := rfl

end Sys2Proof.Machine
end

