-- ==== Sys2Proof/Laws/Ops.lean ====
section
/-! SUPPORT. What each shared operation and each parametric meaning can do, said once, and that the default machine is the
parametric one at `Config.default`. -/

namespace Sys2Proof.Machine

/-- R21: pop fails exactly on the empty stack. -/
theorem State.pop_eq_none {s : State} : s.pop = none ↔ s.stack = [] := by
  rw [← List.getLast?_eq_none_iff]
  unfold State.pop
  cases s.stack.getLast? <;> simp

/-- R21: pop removes and returns the most recently pushed Word. -/
theorem State.pop_of_append {s : State} {older : List Word} {v : Word} (h : s.stack = older ++ [v]) :
    s.pop = some (v, { s with stack := older }) := by
  simp [State.pop, h]

/-- What a successful pop says of the stack it popped. -/
theorem State.pop_eq_some {s t : State} {v : Word} (h : s.pop = some (v, t)) :
    s.stack = t.stack ++ [v] ∧ t = { s with stack := t.stack } := by
  rcases List.eq_nil_or_concat s.stack with hs | ⟨older, x, hs⟩
  · rw [State.pop_eq_none.mpr hs] at h; cases h
  · rw [List.concat_eq_append] at hs
    rw [State.pop_of_append hs] at h
    cases h
    exact ⟨hs, rfl⟩

/-- R91: the overflow condition. -/
theorem State.stackFull_iff {s : State} {depth : Option Nat} : s.stackFull depth = true ↔ depth = some s.stack.length := by
  cases depth with
  | none => simp [State.stackFull]
  | some n => simp only [State.stackFull, beq_iff_eq, Option.some.injEq]; exact eq_comm

/-- R102: fault entry, as one record. -/
theorem State.raiseFault_eq (s : State) (c : FaultCause) :
    s.raiseFault c = { s with P := s.P + 1, status := .faulted c s.P (s.mem.read s.P) } := rfl

/-- R95: the low byte of A as a number. -/
theorem State.lowByteA_eq (s : State) : s.lowByteA = BitVec.ofNat 8 s.A.toNat := by
  simp [State.lowByteA, BitVec.extractLsb']

theorem isWriteToStdout_iff {cfg : Config} {d g : Word} :
    isWriteToStdout cfg d g = true ↔ d = cfg.ioCode .ioWrite ∧ g = cfg.ioCode .targetStdout := by
  simp [isWriteToStdout]

/-- JSR: a fault on a full stack, else the call. -/
theorem jsrWith_full {cfg : Config} {s : State} (t : Word) (h : cfg.stackDepth = some s.stack.length) :
    jsrWith cfg t s = .next (s.raiseFault .stackOverflow) := by
  simp [jsrWith, State.stackFull_iff.mpr h]

theorem jsrWith_room {cfg : Config} {s : State} (t : Word) (h : cfg.stackDepth ≠ some s.stack.length) :
    jsrWith cfg t s = .next { s with P := t, stack := s.stack ++ [s.P + 2] } := by
  simp only [jsrWith, if_neg (mt State.stackFull_iff.mp h)]
  simp [State.pastF1_eq, State.push, State.setP]

/-- RTS: the underflow rule on an empty stack, else the return. -/
theorem rtsWith_empty {cfg : Config} {s : State} (h : s.stack = []) :
    rtsWith cfg s = .next (s.rtsUnderflow cfg.rtsUnderflowPolicy) := by
  simp [rtsWith, State.pop_eq_none.mpr (show s.pastF0.stack = [] from h)]

theorem rtsWith_append {cfg : Config} {s : State} {older : List Word} {v : Word} (h : s.stack = older ++ [v]) :
    rtsWith cfg s = .next { s with P := v, stack := older } := by
  simp only [rtsWith, State.pop_of_append (show s.pastF0.stack = older ++ [v] from h)]
  rfl

/-- Everything RTS can do. -/
theorem rtsWith_cases (cfg : Config) (s : State) :
    (s.stack = [] ∧ rtsWith cfg s = .next (s.rtsUnderflow cfg.rtsUnderflowPolicy)) ∨
    ∃ older v, s.stack = older ++ [v] ∧ rtsWith cfg s = .next { s with P := v, stack := older } := by
  rcases List.eq_nil_or_concat s.stack with hs | ⟨older, v, hs⟩
  · exact .inl ⟨hs, rtsWith_empty hs⟩
  · rw [List.concat_eq_append] at hs
    exact .inr ⟨older, v, hs, rtsWith_append hs⟩

/-- BIOS, as one record. -/
theorem biosWith_eq (cfg : Config) (d g : Word) (s : State) :
    biosWith cfg d g s = .next { s with
      P := s.P + 3, out := if isWriteToStdout cfg d g then s.out ++ [s.lowByteA] else s.out } := by
  unfold biosWith
  split <;> simp [State.pastF2_eq, State.emit]

/-- The default machine is the parametric machine at the default parameters. -/
theorem execWith_default (i : Instr) (s : State) : execWith Config.default i s = exec i s := by
  cases i <;> rfl

end Sys2Proof.Machine
end

