-- ==== Sys2Proof/Laws/PerInstr.lean ====
section
/-! SUPPORT. Statements about every instruction as syntax, one lemma per constructor. -/

namespace Sys2Proof.Laws.OperandRoundTrip

/-- The operand Words of an instruction, after its opcode, give the instruction back (R47, R49). -/
def Statement (i : Instr) : Prop :=
  ∀ rest : List Word, Instr.ofOperands i.mnemonic (i.operands ++ rest) = some (i, rest)

theorem halt : Statement .halt := fun _ => rfl
theorem noop : Statement .noop := fun _ => rfl
theorem inca : Statement .inca := fun _ => rfl
theorem deca : Statement .deca := fun _ => rfl
theorem seta (imm : Word) : Statement (.seta imm) := fun _ => rfl
theorem seti (imm : Word) : Statement (.seti imm) := fun _ => rfl
theorem inci : Statement .inci := fun _ => rfl
theorem cmpi (imm : Word) : Statement (.cmpi imm) := fun _ => rfl
theorem jump (target : Word) : Statement (.jump target) := fun _ => rfl
theorem jmpz (target : Word) : Statement (.jmpz target) := fun _ => rfl
theorem setatom : Statement .setatom := fun _ => rfl
theorem jsr (target : Word) : Statement (.jsr target) := fun _ => rfl
theorem rts : Statement .rts := fun _ => rfl
theorem bios (direction target : Word) : Statement (.bios direction target) := fun _ => rfl

end Sys2Proof.Laws.OperandRoundTrip

namespace Sys2Proof.Laws.OperandCount

/-- An instruction has as many operand Words as the InstructionTable says (R48). -/
def Statement (i : Instr) : Prop := i.operands.length = i.mnemonic.operandCount

theorem halt : Statement .halt := rfl
theorem noop : Statement .noop := rfl
theorem inca : Statement .inca := rfl
theorem deca : Statement .deca := rfl
theorem seta (imm : Word) : Statement (.seta imm) := rfl
theorem seti (imm : Word) : Statement (.seti imm) := rfl
theorem inci : Statement .inci := rfl
theorem cmpi (imm : Word) : Statement (.cmpi imm) := rfl
theorem jump (target : Word) : Statement (.jump target) := rfl
theorem jmpz (target : Word) : Statement (.jmpz target) := rfl
theorem setatom : Statement .setatom := rfl
theorem jsr (target : Word) : Statement (.jsr target) := rfl
theorem rts : Statement .rts := rfl
theorem bios (direction target : Word) : Statement (.bios direction target) := rfl

end Sys2Proof.Laws.OperandCount
end

