-- ==== Sys2Proof/Laws/Step.lean ====
section
/-! SUPPORT. What the fetch and the step can do, said once. -/

namespace Sys2Proof.Machine

/-- The default step is the parametric one. -/
theorem step_eq_stepWith (s : State) : step s = stepWith Config.default s := by
  simp only [step, stepWith, State.stepBy, execWith_default]

theorem stepBy_running {s : State} {cfg : Config} {run : Instr → State → Result} (h : s.status = .running) :
    s.stepBy cfg run = match s.fetchInstr cfg with
      | .ok (i, _) => run i s
      | .error _ => .next (s.unknownOpcode cfg.unknownOpcodePolicy) := by
  cases hf : s.fetchInstr cfg <;> simp [State.stepBy, h, hf]

theorem State.fetchWords_length (n : Nat) (s : State) : (s.fetchWords n).length = n := by
  induction n generalizing s with
  | zero => rfl
  | succ n ih => simp [State.fetchWords, ih]

/-- Fetching as many Words as a list has finds exactly the Words that stand from P on. -/
theorem State.fetchWords_eq_iff (ws : List Word) (s : State) :
    s.fetchWords ws.length = ws ↔ WordsAt s.mem s.P ws := by
  induction ws generalizing s with
  | nil => simp [State.fetchWords, WordsAt]
  | cons w ws ih =>
    simp only [List.length_cons, State.fetchWords, List.cons.injEq, WordsAt, ih, State.advance_mem, State.advance_P]
    rfl

theorem wordsAt_append (m : Memory) (p : Word) (a b : List Word) :
    WordsAt m p (a ++ b) ↔ WordsAt m p a ∧ WordsAt m (p + BitVec.ofNat 64 a.length) b := by
  induction a generalizing p with
  | nil => simp [WordsAt]
  | cons w a ih =>
    simp only [List.cons_append, WordsAt, ih, and_assoc, List.length_cons]
    have : p + 1 + BitVec.ofNat 64 a.length = p + BitVec.ofNat 64 (a.length + 1) := by
      rw [BitVec.add_assoc]; congr 1; simp [BitVec.ofNat_add, BitVec.add_comm]
    rw [this]

/-- The fetch of an instruction whose Words stand from P on. -/
theorem State.fetchInstr_of_wordsAt {cfg : Config} {s : State} {i : Instr} (hc : cfg.wf = true)
    (h : WordsAt s.mem s.P (encode cfg i)) : s.fetchInstr cfg = .ok (i, []) := by
  have hw : s.fetchedWord = cfg.opcode i.mnemonic := h.1
  have hl : cfg.lengthOf s.fetchedWord = (encode cfg i).length := by
    simp [Config.lengthOf, hw, Config.mnemonicOf_opcode hc, encode, Instr.length_operands, Nat.add_comm]
  have hr : Instr.ofOperands i.mnemonic i.operands = some (i, []) := by cases i <;> rfl
  rw [State.fetchInstr, hl, (State.fetchWords_eq_iff _ s).mpr h]
  simp [decode, encode, Config.mnemonicOf_opcode hc, hr]

/-- R52, R53: everything the fetch can answer: an instruction whose Words stand from P on, or an unknown opcode. -/
theorem State.fetchInstr_cases (cfg : Config) (s : State) :
    (∃ i, s.fetchInstr cfg = .ok (i, []) ∧ WordsAt s.mem s.P (encode cfg i)) ∨
    (s.fetchInstr cfg = .error (.unknownOpcode s.fetchedWord) ∧ ∀ m, cfg.opcode m ≠ s.mem.read s.P) := by
  cases hm : cfg.mnemonicOf s.fetchedWord with
  | none =>
    refine .inr ⟨?_, Config.mnemonicOf_eq_none.mp hm⟩
    simp [State.fetchInstr, Config.lengthOf, hm, State.fetchWords, decode]
  | some m =>
    have hop := Config.opcode_of_mnemonicOf hm
    obtain ⟨⟨i, rest⟩, hr⟩ := Instr.ofOperands_isSome m (s.advance.fetchWords m.operandCount)
      (by rw [State.fetchWords_length])
    obtain ⟨rfl, hws⟩ := Instr.ofOperands_eq_some hr
    have hrest : rest = [] := by
      have := congrArg List.length hws
      rw [State.fetchWords_length, List.length_append, Instr.length_operands] at this
      exact List.eq_nil_of_length_eq_zero (by omega)
    subst hrest
    rw [List.append_nil] at hws
    have hfetch : s.fetchWords (1 + i.mnemonic.operandCount) = s.fetchedWord :: i.operands := by
      rw [Nat.add_comm]; simp [State.fetchWords, hws]
    refine .inl ⟨i, ?_, ?_⟩
    · simp only [State.fetchInstr, Config.lengthOf, hm, hfetch, decode]
      rw [hws] at hr
      simp [hr]
    · rw [← State.fetchWords_eq_iff, encode, List.length_cons, Instr.length_operands, Nat.add_comm, hfetch, hop]

/-- Everything a step can do when it answers a next state. -/
theorem stepWith_cases {cfg : Config} {s t : State} (h : stepWith cfg s = .next t) :
    s.status = .running ∧
    ((∃ i, WordsAt s.mem s.P (encode cfg i) ∧ s.fetchInstr cfg = .ok (i, []) ∧ execWith cfg i s = .next t) ∨
     ((∀ m, cfg.opcode m ≠ s.mem.read s.P) ∧ t = s.unknownOpcode cfg.unknownOpcodePolicy)) := by
  cases hs : s.status with
  | running =>
    refine ⟨rfl, ?_⟩
    rw [stepWith, stepBy_running hs] at h
    rcases s.fetchInstr_cases cfg with ⟨i, hf, hw⟩ | ⟨hf, hu⟩
    · rw [hf] at h; exact .inl ⟨i, hw, hf, h⟩
    · rw [hf] at h; cases h; exact .inr ⟨hu, rfl⟩
  | ready => simp [stepWith, State.stepBy, hs] at h
  | halted => simp [stepWith, State.stepBy, hs] at h
  | faulted c a w => simp [stepWith, State.stepBy, hs] at h

/-- The step of a Running core on an unknown opcode. -/
theorem stepWith_unknown {cfg : Config} {s : State} (hs : s.status = .running)
    (hu : ∀ m, cfg.opcode m ≠ s.mem.read s.P) :
    stepWith cfg s = .next (s.unknownOpcode cfg.unknownOpcodePolicy) := by
  rw [stepWith, stepBy_running hs]
  rcases s.fetchInstr_cases cfg with ⟨i, -, hw⟩ | ⟨hf, -⟩
  · exact absurd hw.1.symm (hu i.mnemonic)
  · rw [hf]

end Sys2Proof.Machine
end

