-- ==== Sys2Proof/Tests/Slice0.lean ====
section
/-! SUPPORT. Small tests, each expected result taken from the spec (the vector or rule is named), and one witness for the
hypotheses of each statement of Certificates/Slice0/Obligations.lean. -/

namespace Sys2Proof.Tests

open Sys2Proof Machine

/-- A Running core at P = 0 with the given Words loaded at 0. -/
def running (ws : List Word) : State := State.reset.placeAtP ws

/-- The largest Word. -/
def maxWord : Word := 0xFFFFFFFFFFFFFFFF

/-- The default machine with other opcode numbers: 100 more than the default. -/
def otherOpcodes : Config := { Config.default with opcode := fun m => Config.defaultOpcode m + 100 }
/-- The default machine with UNKNOWN_OPCODE_POLICY = noop. -/
def noopPolicy : Config := { Config.default with unknownOpcodePolicy := .noop }
/-- The default machine with RTS_UNDERFLOW_POLICY = continue_keep_p. -/
def keepPolicy : Config := { Config.default with rtsUnderflowPolicy := .continueKeepP }
/-- The default machine with RTS_UNDERFLOW_POLICY = continue_zero_p. -/
def zeroPolicy : Config := { Config.default with rtsUnderflowPolicy := .continueZeroP }
/-- The default machine with STACK_DEPTH = 1 (V-CT-6). -/
def depthOne : Config := { Config.default with stackDepth := some 1 }

/-- The result is a next state with a property. -/
def nextIs (r : Result) (p : State → Bool) : Bool :=
  match r with
  | .next t => p t
  | .fault _ => false
  | .refused _ => false

/-! ### Well-formedness: each check refuses an ill-formed term -/

theorem test_default_wf : Config.default.wf = true := by decide
theorem test_wf_refuses_equal_opcodes :
    Config.opcodesDistinct { Config.default with opcode := fun _ => 0 } = false := by decide
theorem test_wf_refuses_equal_directions :
    Config.directionsDistinct { Config.default with ioCode := fun _ => 1 } = false := by decide
theorem test_wf_refuses_equal_targets :
    Config.targetsDistinct { Config.default with ioCode := fun _ => 1 } = false := by decide
theorem test_wf_refuses_debug_trace : Config.wf { Config.default with debugTrace := true } = false := by decide
theorem test_memory_wf_refuses_unsorted : Memory.wf { cells := [(2, 1), (1, 1)] } = false := by decide
theorem test_memory_wf_refuses_listed_zero : Memory.wf { cells := [(1, 0)] } = false := by decide

/-! ### Decoding: Words written out from R47 and R50 -/

theorem test_decode_machine_control : decode Config.default [0x0000000000000001, 7] = .ok (.noop, [7]) := by rfl
theorem test_decode_accumulator : decode Config.default [0x0000000000000004, 12, 0] = .ok (.seta 12, [0]) := by rfl
theorem test_decode_index : decode Config.default [0x0000000000000007, maxWord] = .ok (.cmpi maxWord, []) := by rfl
theorem test_decode_control : decode Config.default [0x0000000000000009, 6] = .ok (.jmpz 6, []) := by rfl
theorem test_decode_device : decode Config.default [0x000000000000000D, 1, 2] = .ok (.bios 1 2, []) := by rfl
theorem test_decode_full_width : decode Config.default [0x8000000000000000] = .error (.unknownOpcode 0x8000000000000000) := by rfl
theorem test_decode_missing_operand : decode Config.default [0xD, 1] = .error (.missingOperand .bios) := by rfl
/-- Every row of the default table, in the table's order (R50), operands 0. -/
theorem test_table_rows :
    (List.range 15).map (fun w => decodeTableWord 64 w) =
      [some .halt, some .noop, some .inca, some .deca, some (.seta 0), some (.seti 0), some .inci, some (.cmpi 0),
       some (.jump 0), some (.jmpz 0), some .setatom, some (.jsr 0), some .rts, some (.bios 0 0), none] := by decide
theorem test_other_opcodes_decode : decode otherOpcodes [102] = .ok (.inca, []) := by rfl

/-! ### One step (95_test_vectors.md) -/

/-- W1: one HALT. -/
theorem test_halt : nextIs (step (running [0])) (fun t => t.P == 1 && t.status == .halted) = true := by decide
/-- V-MC-2: HALT leaves every register. -/
theorem test_halt_frame :
    nextIs (step { running [0] with A := 5, I := 6, Z := true, stack := [9] })
      (fun t => t.A == 5 && t.I == 6 && t.Z && t.stack == [9] && t.P == 1) = true := by decide
/-- V-FE-4: NOOP at the last address wraps P. -/
theorem test_noop_wraps : nextIs (exec .noop { running [] with P := maxWord }) (fun t => t.P == 0) = true := by decide
/-- V-ACC-2: INCA wraps and leaves FlagZero. -/
theorem test_inca_wraps : nextIs (exec .inca { running [2] with A := maxWord }) (fun t => t.A == 0 && !t.Z) = true := by decide
/-- V-ACC-3: DECA wraps and leaves FlagZero. -/
theorem test_deca_wraps :
    nextIs (exec .deca { running [3] with Z := true }) (fun t => t.A == maxWord && t.Z) = true := by decide
/-- V-FE-5: SETA at the last address reads its operand at 0. -/
theorem test_seta_wraps :
    nextIs (step ({ State.reset with P := maxWord }.placeAtP [4, 99])) (fun t => t.A == 99 && t.P == 1) = true := by decide
/-- V-ACC-8: SETATOM at address 0 reads its own opcode. -/
theorem test_setatom_reads_code : nextIs (step (running [10])) (fun t => t.A == 10 && t.P == 1) = true := by decide
/-- V-ACC-9: SETATOM at an address never loaded. -/
theorem test_setatom_unset :
    nextIs (step { running [10] with A := 3, I := 1000 }) (fun t => t.A == 0 && t.I == 1000) = true := by decide
/-- V-IDX-1. -/
theorem test_seti : nextIs (step { running [5, 9] with A := 3, I := 4 }) (fun t => t.I == 9 && t.A == 3 && t.P == 2) = true := by
  decide
/-- V-IDX-2. -/
theorem test_inci_wraps : nextIs (step { running [6] with I := maxWord }) (fun t => t.I == 0 && !t.Z) = true := by decide
/-- V-IDX-5. -/
theorem test_cmpi_equal : nextIs (step { running [7, maxWord] with I := maxWord }) (fun t => t.Z && t.P == 2) = true := by decide
/-- V-IDX-6. -/
theorem test_cmpi_clears : nextIs (step { running [7, 2] with I := 1, Z := true }) (fun t => !t.Z) = true := by decide
/-- V-FE-7. -/
theorem test_jump : nextIs (step (running [8, 1])) (fun t => t.P == 1) = true := by decide
/-- V-CT-2: JMPZ jumps when FlagZero is false. -/
theorem test_jmpz_taken : nextIs (step (running [9, 4])) (fun t => t.P == 4) = true := by decide
/-- V-CT-3: JMPZ falls through when FlagZero is true. -/
theorem test_jmpz_not_taken : nextIs (step { running [9, 4] with Z := true }) (fun t => t.P == 2 && t.Z) = true := by decide
/-- V-CT-5: JSR pushes p + 2. -/
theorem test_jsr : nextIs (step (running [11, 4])) (fun t => t.P == 4 && t.stack == [2]) = true := by decide
/-- V-CT-6: JSR on a full stack of depth 1. -/
theorem test_jsr_overflow :
    nextIs (stepWith depthOne { (running [11, 2, 11, 4]) with P := 2, stack := [2] })
      (fun t => t.status == .faulted .stackOverflow 2 11 && t.P == 3 && t.stack == [2]) = true := by decide
/-- V-CT-11. -/
theorem test_rts : nextIs (step { running [12] with stack := [5, 9] }) (fun t => t.P == 9 && t.stack == [5]) = true := by decide
/-- V-CT-8: RTS on an empty stack. -/
theorem test_rts_underflow :
    nextIs (step (running [12])) (fun t => t.status == .faulted .stackUnderflow 0 12 && t.P == 1 && t.out == []) = true := by
  decide
/-- V-CT-10: RTS under continue_zero_p sends P to 0. -/
theorem test_rts_continue_zero :
    nextIs (stepWith zeroPolicy { running [2, 12] with P := 1 }) (fun t => t.P == 0 && t.status == .running) = true := by decide
/-- V-IO-2: the low byte only. -/
theorem test_bios_low_byte : nextIs (step { running [13, 1, 1] with A := 0x141 }) (fun t => t.out == [0x41] && t.P == 3) = true := by
  decide
/-- V-IO-7: codes are compared as whole Words. -/
theorem test_bios_whole_words :
    nextIs (step { running [13, 0x100000000000001, 1] with A := 0x48 }) (fun t => t.out == [] && t.P == 3) = true := by decide
/-- V-FE-1: an unknown opcode under the default policy. -/
theorem test_unknown_faults :
    nextIs (step (running [0xFF])) (fun t => t.status == .faulted .unknownOpcode 0 0xFF && t.P == 1) = true := by decide
/-- V-FE-2: an unknown opcode under policy noop. -/
theorem test_unknown_noop :
    nextIs (stepWith noopPolicy (running [0xFF])) (fun t => t.status == .running && t.P == 1) = true := by decide
/-- R72, R117: no step right after reset. -/
theorem test_reset_takes_no_step : step State.reset = .fault .notRunning := by rfl
/-- A table word placed in the reset state runs as the first instruction (BIOS 1, 1 with A = 0: V-IO-3). -/
theorem test_fetch_word_runs :
    nextIs (step (State.reset.withFetchWord 192 0x0000000000000001_0000000000000001_000000000000000D))
      (fun t => t.out == [0x00] && t.P == 3) = true := by decide

/-! ### Host port and codec -/

/-- R36, R103, R119. -/
theorem test_load_refused_while_running : (running []).hostLoad [1] = .error .coreRunning := by rfl
theorem test_run_in_faulted_does_nothing :
    (State.hostRun { running [] with status := .faulted .unknownOpcode 0 0xFF }).map (·.status) =
      some (.faulted .unknownOpcode 0 0xFF) := by rfl
/-- W5. -/
theorem test_codec_encode :
    encodeImage [0x0102030405060708, maxWord, 0] =
      [1, 2, 3, 4, 5, 6, 7, 8, 255, 255, 255, 255, 255, 255, 255, 255, 0, 0, 0, 0, 0, 0, 0, 0] := by decide
/-- V-COD-4 and V-COD-2. -/
theorem test_codec_decode : decodeImage [0, 0, 0, 0, 0, 0, 1, 0] = .ok [256] := by rfl
theorem test_codec_truncated : decodeImage [0, 0, 0, 0, 0, 0, 0] = .error .truncatedInput := by rfl

/-! ### Assembler, with `m` written `*` and the BIOS symbols `w` and `s` -/

/-- Parameters of these tests only: the source names none of them. -/
def asm : AsmConfig :=
  { dataMarker := '*', ioSymbols := [(['w'], .ioWrite), (['s'], .targetStdout)],
    isSpace := fun c => c == ' ', isLetter := fun c => decide ('A' ≤ c ∧ c ≤ 'Z') || decide ('a' ≤ c ∧ c ≤ 'z') }

def jumpTok : Token := ['J', 'U', 'M', 'P']
def haltTok : Token := ['H', 'A', 'L', 'T']
def setaTok : Token := ['S', 'E', 'T', 'A']
def incaTok : Token := ['I', 'N', 'C', 'A']

theorem test_asm_wf : asm.wf = true := by rfl
theorem test_asm_wf_refuses_digit_marker : AsmConfig.wf { asm with dataMarker := '7' } = false := by rfl
/-- W7, from text. -/
theorem test_asm_forward_reference :
    assemble Config.default asm (jumpTok ++ [' ', 'L', ' '] ++ haltTok ++ [' ', ' ', 'L', ':', ' '] ++ incaTok) =
      .ok [8, 3, 0, 2] := by rfl
/-- W8, V-ASM-1, V-ASM-2, V-ASM-3. -/
theorem test_asm_duplicate :
    assembleTokens Config.default asm [['X', ':'], haltTok, ['X', ':'], haltTok] = .error (.duplicateLabel ['X', ':'] 2) := by rfl
theorem test_asm_missing : assembleTokens Config.default asm [setaTok] = .error (.missingOperand setaTok 0) := by rfl
theorem test_asm_invalid : assembleTokens Config.default asm [setaTok, haltTok] = .error (.invalidOperand haltTok 1) := by rfl
theorem test_asm_undefined : assembleTokens Config.default asm [jumpTok, ['N']] = .error (.undefinedLabel ['N'] 1) := by rfl
/-- V-ASM-4 and V-ASM-5: the largest decimal, and one more. -/
theorem test_asm_decimal_max : dataWords asm (Nat.toDigits 10 (2 ^ 64 - 1)) = some [maxWord] := by rfl
theorem test_asm_decimal_too_big : dataWords asm (Nat.toDigits 10 (2 ^ 64)) = none := by rfl
/-- V-ASM-6, V-ASM-7, V-ASM-8, V-ASM-12. -/
theorem test_asm_data :
    dataWords asm ['1', '2', 'a', 'b'] = none ∧ dataWords asm ['*', 'H', 'i'] = some [72, 105] ∧
    dataWords asm ['*', '1', '2'] = some [12] ∧ dataWords asm ['-', '5'] = none ∧ dataWords asm ['*'] = none := by
  refine ⟨?_, ?_, ?_, ?_, ?_⟩ <;> rfl
/-- V-ASM-11: a string in an operand slot takes one Word per character. -/
theorem test_asm_string_operand :
    assembleTokens Config.default asm [jumpTok, ['L'], ['L', ':'], setaTok, ['*', 'A', 'B']] = .ok [8, 2, 4, 65, 66] := by rfl
/-- R60: an I/O symbol emits its code. -/
theorem test_asm_io_symbol :
    assembleTokens Config.default asm [['B', 'I', 'O', 'S'], ['w'], ['s']] = .ok [13, 1, 1] := by rfl

/-! ### Witnesses: a state and operands that meet the hypotheses of each statement -/

theorem witness_DecodeOfEncode : Config.default.wf = true ∧ otherOpcodes.wf = true := by decide
theorem witness_EncodeOfDecode : decode Config.default [13, 1, maxWord, 9] = .ok (.bios 1 maxWord, [9]) := by rfl
theorem witness_LengthKnownFromOpcode : otherOpcodes.wf = true ∧ otherOpcodes.lengthOf 113 = 3 := by decide
theorem witness_StepExecutes :
    (running [4, maxWord]).status = .running ∧ WordsAt (running [4, maxWord]).mem 0 (encode Config.default (.seta maxWord)) ∧
    otherOpcodes.wf = true ∧ WordsAt (running [104, 7]).mem 0 (encode otherOpcodes (.seta 7)) :=
  ⟨rfl, ⟨rfl, rfl, trivial⟩, by decide, ⟨rfl, rfl, trivial⟩⟩
theorem witness_PlacedTableWord :
    State.reset.mem.wf = true ∧ decodeTableWord 128 0x0000000000000003_000000000000000B = some (.jsr 3) := by decide
/-- A Running state at the last address whose first Word is the opcode: the premises of the one-Word instructions. -/
theorem witness_one_word :
    ∀ m ∈ [Mnemonic.halt, .noop, .inca, .deca, .setatom, .inci, .rts],
      Config.default.wf = true ∧
      ({ State.reset with P := maxWord }.placeAtP [Config.default.opcode m]).status = .running ∧
      ({ State.reset with P := maxWord }.placeAtP [Config.default.opcode m]).mem.read maxWord = Config.default.opcode m := by
  decide
/-- The premises of the two-Word instructions, the operand at the last address. -/
theorem witness_two_words :
    ∀ m ∈ [Mnemonic.seta, .seti, .cmpi, .jump, .jmpz, .jsr],
      ({ State.reset with P := maxWord - 1 }.placeAtP [Config.default.opcode m, maxWord]).status = .running ∧
      ({ State.reset with P := maxWord - 1 }.placeAtP [Config.default.opcode m, maxWord]).mem.read (maxWord - 1) =
        Config.default.opcode m ∧
      ({ State.reset with P := maxWord - 1 }.placeAtP [Config.default.opcode m, maxWord]).mem.read maxWord = maxWord := by
  decide
theorem witness_IncaDecaPairs :
    WordsAt (running [2, 3, 2, 3]).mem 0 (List.replicate 2 [Config.default.opcode .inca, Config.default.opcode .deca]).flatten :=
  ⟨rfl, rfl, rfl, rfl, trivial⟩
/-- Both branches of W9. -/
theorem witness_CmpiThenJmpz :
    (running [7, 5, 9, 6]).status = .running ∧ WordsAt (running [7, 5, 9, 6]).mem 0 [7, 5, 9, 6] ∧
    (running [7, 0, 9, 6]).I = 0 ∧ (running [7, 5, 9, 6]).I ≠ 5 :=
  ⟨rfl, ⟨rfl, rfl, rfl, rfl, trivial⟩, rfl, by decide⟩
/-- JSR's two clauses: room, and a full stack of depth 1. -/
theorem witness_Jsr :
    Config.default.stackDepth ≠ some (running [11, 2]).stack.length ∧ depthOne.wf = true ∧
    depthOne.stackDepth ≠ some (running [11, 2]).stack.length ∧
    depthOne.stackDepth = some ({ running [11, 2] with stack := [2] } : State).stack.length := by decide
theorem witness_RtsPops : ({ running [12] with stack := [5, 9] } : State).stack = [5] ++ [9] := by decide
/-- SETATOM's never-loaded clause at the first address past the program. -/
theorem witness_SetatomNeverLoaded :
    ∃ t, State.reset.hostLoad [10, 7] = .ok t ∧ (running [10, 7]).mem = t.mem ∧
      [10, 7].length ≤ ({ running [10, 7] with I := 2 } : State).I.toNat := ⟨_, rfl, rfl, by decide⟩
/-- RTS's underflow under each policy. -/
theorem witness_RtsUnderflow :
    (running [12]).stack = [] ∧ (running [12]).mem.read (running [12]).P = Config.default.opcode .rts ∧
    Config.default.rtsUnderflowPolicy = .fault ∧ keepPolicy.wf = true ∧ keepPolicy.rtsUnderflowPolicy = .continueKeepP ∧
    zeroPolicy.wf = true ∧ zeroPolicy.rtsUnderflowPolicy = .continueZeroP := by decide
/-- BIOS: the pair that writes and a pair that does not. -/
theorem witness_Bios :
    (running [13, 1, 1]).mem.read 1 = Config.default.ioCode .ioWrite ∧
    (running [13, 1, 1]).mem.read 2 = Config.default.ioCode .targetStdout ∧
    (running [13, 1, 0]).mem.read 2 ≠ Config.default.ioCode .targetStdout := by decide
theorem witness_UnknownOpcode :
    (running [0xE]).status = .running ∧ (∀ m, Config.default.opcode m ≠ (running [0xE]).mem.read 0) ∧
    noopPolicy.unknownOpcodePolicy = .noop := by
  refine ⟨rfl, fun m => ?_, rfl⟩
  cases m <;> decide
/-- A next state of each machine rule that assumes one, with a nonzero frame. -/
theorem witness_next_state :
    nextIs (execWith depthOne (.jsr 7) { running [11, 7] with A := 1, I := 2, Z := true }) (fun t => t.A == 1 && t.I == 2 && t.Z) =
      true ∧
    nextIs (stepWith Config.default { running [13, 1, 1] with A := 0x48 }) (fun t => t.out == [0x48]) = true := by decide
/-- Values of A that differ above bit 7 only (the BIOS clause of AccumulatorWritersAndReaders). -/
theorem witness_low_byte : (0x141 : Word).toNat % 256 = (0x41 : Word).toNat % 256 ∧ (Instr.bios 1 1).mnemonic = .bios := by decide
/-- Underflow reports: a state from which a continuing RTS steps (OutputOnlyFromBiosAndUnderflow). -/
theorem witness_continuing_underflow : nextIs (stepWith keepPolicy (running [12])) (fun t => t.P == 1) = true := by decide
/-- A memory that differs from a state's only where the step does not read (StepReadsOnlyItsWords). -/
theorem witness_StepReadsOnlyItsWords :
    (({ running [10, 5, 6] with I := 2 } : State).readAddresses Config.default).all (fun a =>
      (running [10, 77, 6]).mem.read a == ({ running [10, 5, 6] with I := 2 } : State).mem.read a) = true := by rfl
/-- The same for a JSR on a full stack, whose operand is not read (R102). -/
theorem witness_StepReadsOnlyItsWords_overflow :
    (({ running [11, 5] with stack := [2] } : State).readAddresses depthOne).all (fun a =>
      (running [11, 77]).mem.read a == ({ running [11, 5] with stack := [2] } : State).mem.read a) = true := by rfl
/-- A state with a stack entry that meets the invariant, and a step from it. -/
theorem witness_Inv :
    Inv Config.default { running [11, 3, 0, 12] with P := 3, stack := [2] } ∧
    nextIs (stepWith Config.default { running [11, 3, 0, 12] with P := 3, stack := [2] }) (fun t => t.P == 2) = true := by
  refine ⟨⟨rfl, by simp [Config.default], fun v hv => ?_, by simp [running, State.placeAtP], ?_⟩, by decide⟩
  · rw [List.mem_singleton.mp hv]; rfl
  · intro c a w h
    exact absurd h (by simp [running, State.placeAtP])
/-- A faulting step for each cause. -/
theorem witness_faults :
    nextIs (stepWith Config.default (running [0xE])) (fun t => t.status == .faulted .unknownOpcode 0 0xE) = true ∧
    nextIs (stepWith Config.default (running [12])) (fun t => t.status == .faulted .stackUnderflow 0 12) = true ∧
    nextIs (stepWith depthOne { running [11, 2] with stack := [2] }) (fun t => t.status == .faulted .stackOverflow 0 11) = true := by
  decide
/-- The parameters of a machine that never faults, and a state to run from (ContinuingMachineNeverFaults). -/
theorem witness_ContinuingMachine :
    let cfg : Config := { keepPolicy with unknownOpcodePolicy := .noop }
    cfg.wf = true ∧ cfg.unknownOpcodePolicy = .noop ∧ cfg.rtsUnderflowPolicy ≠ .fault ∧ cfg.stackDepth = none ∧
    (∀ cause addr word, (running [12, 0xFF]).status ≠ .faulted cause addr word) := by
  refine ⟨by decide, rfl, by decide, rfl, fun _ _ _ h => ?_⟩
  simp [running, State.placeAtP] at h
/-- Each status in which no step is taken, and in which Run is issued. -/
theorem witness_not_running :
    State.reset.status = .ready ∧ ({ running [0] with status := .halted } : State).status = .halted ∧
    ({ running [0] with status := .faulted .stackOverflow 2 11 } : State).status = .faulted .stackOverflow 2 11 := by decide
/-- A load into reset memory that succeeds, and one while running. -/
theorem witness_load :
    State.reset.status ≠ .running ∧ State.reset.mem.wf = true ∧ [1, maxWord].length ≤ 2 ^ 64 ∧ (running []).status = .running := by
  decide
theorem witness_HaltOnlyProgram :
    (State.reset.hostLoad (List.replicate 3 (otherOpcodes.opcode .halt))).toOption.map (fun s => s.hostRun.map (·.status)) =
      some (some .running) := by rfl
theorem witness_canonical : Memory.wf { cells := [(0, 1), (2 ^ 64 - 1, maxWord)] } = true := by decide
theorem witness_Subroutine :
    (∀ i ∈ [Instr.inca, .seti 4, .bios 1 1], IsStraightLine i) ∧
    WordsAt (running [11, 3, 0, 2, 5, 4, 13, 1, 1, 12]).mem 0 [Config.default.opcode .jsr, 3] ∧
    WordsAt (running [11, 3, 0, 2, 5, 4, 13, 1, 1, 12]).mem 3
      (encodeAll Config.default [Instr.inca, .seti 4, .bios 1 1] ++ [Config.default.opcode .rts]) := by
  refine ⟨by simp [IsStraightLine], ⟨rfl, rfl, trivial⟩, ⟨rfl, rfl, rfl, rfl, rfl, rfl, rfl, trivial⟩⟩
/-- A separator, and a text that is one run (TokensAreTheNonSpaceRuns). -/
theorem witness_Tokens : asm.isSpace ' ' = true ∧ haltTok ≠ [] ∧ ∀ c ∈ haltTok, asm.isSpace c = false :=
  ⟨rfl, by simp [haltTok], by simp [haltTok, asm]⟩
/-- A load into a Faulted machine that succeeds, of Words and of an image (FaultRecordReadableUntilReset). -/
theorem witness_FaultedLoad :
    ((State.hostLoad { running [0xFF] with status := .faulted .unknownOpcode 0 0xFF } [1]).toOption.map (·.status)) =
      some (.faulted .unknownOpcode 0 0xFF) ∧
    ((State.hostLoadImage { running [0xFF] with status := .faulted .unknownOpcode 0 0xFF }
      (some [0, 0, 0, 0, 0, 0, 0, 1])).toOption.map (·.status)) = some (.faulted .unknownOpcode 0 0xFF) := by
  exact ⟨rfl, rfl⟩
theorem witness_image_lengths : ([0, 0, 0] : List Byte).length % 8 ≠ 0 ∧ (List.replicate 16 (1 : Byte)).length % 8 = 0 := by decide
theorem witness_IsReference : asm.wf = true ∧ IsReference asm ['L'] := ⟨rfl, rfl, rfl, rfl, rfl⟩
theorem witness_AssembledReferences :
    assembleTokens Config.default asm [['L', ':'], jumpTok, ['L']] = .ok [8, 0] := by rfl

end Sys2Proof.Tests
end

section
/-! SUPPORT. Every instruction of the parametric machine as one equation: the next state as a record update of the state
before it, or, for JSR and RTS, the meaning whose cases stand in Laws (`jsrWith_full`, `jsrWith_room`, `rtsWith_cases`). -/

namespace Sys2Proof.Machine

variable (cfg : Config) (s : State)

@[simp] theorem execWith_halt : execWith cfg .halt s = .next { s with P := s.P + 1, status := .halted } := rfl

@[simp] theorem execWith_noop : execWith cfg .noop s = .next { s with P := s.P + 1 } := rfl

@[simp] theorem execWith_inca : execWith cfg .inca s = .next { s with P := s.P + 1, A := s.A + 1 } := rfl

@[simp] theorem execWith_deca : execWith cfg .deca s = .next { s with P := s.P + 1, A := s.A - 1 } := rfl

@[simp] theorem execWith_seta (n : Word) : execWith cfg (.seta n) s = .next { s with P := s.P + 2, A := n } := by
  simp only [execWith, execSeta, State.pastF1_eq, State.setA]

@[simp] theorem execWith_setatom :
    execWith cfg .setatom s = .next { s with P := s.P + 1, A := s.mem.read s.I } := rfl

@[simp] theorem execWith_seti (n : Word) : execWith cfg (.seti n) s = .next { s with P := s.P + 2, I := n } := by
  simp only [execWith, execSeti, State.pastF1_eq, State.setI]

@[simp] theorem execWith_inci : execWith cfg .inci s = .next { s with P := s.P + 1, I := s.I + 1 } := rfl

@[simp] theorem execWith_cmpi (n : Word) :
    execWith cfg (.cmpi n) s = .next { s with P := s.P + 2, Z := decide (n = s.I) } := by
  simp only [execWith, execCmpi, State.pastF1_eq, State.setZ, compareFlag]
  rfl

@[simp] theorem execWith_jump (t : Word) : execWith cfg (.jump t) s = .next { s with P := t } := rfl

@[simp] theorem execWith_jmpz (t : Word) :
    execWith cfg (.jmpz t) s = .next { s with P := if s.Z = false then t else s.P + 2 } := by
  cases hz : s.Z <;> simp [execWith, execJmpz, jmpzTaken, hz, State.pastF1_eq, State.setP]

@[simp] theorem execWith_jsr (t : Word) : execWith cfg (.jsr t) s = jsrWith cfg t s := rfl

@[simp] theorem execWith_rts : execWith cfg .rts s = rtsWith cfg s := rfl

@[simp] theorem execWith_bios (d g : Word) :
    execWith cfg (.bios d g) s = .next { s with
      P := s.P + 3, out := if isWriteToStdout cfg d g then s.out ++ [s.lowByteA] else s.out } :=
  biosWith_eq cfg d g s

@[simp] theorem mapNext_next (f : State → State) : mapNext f (.next s) = .next (f s) := rfl

/-- Everything JSR can do. -/
theorem jsrWith_cases (t : Word) :
    (cfg.stackDepth = some s.stack.length ∧ jsrWith cfg t s = .next (s.raiseFault .stackOverflow)) ∨
    (cfg.stackDepth ≠ some s.stack.length ∧
      jsrWith cfg t s = .next { s with P := t, stack := s.stack ++ [s.P + 2] }) := by
  by_cases h : cfg.stackDepth = some s.stack.length
  · exact .inl ⟨h, jsrWith_full t h⟩
  · exact .inr ⟨h, jsrWith_room t h⟩

end Sys2Proof.Machine
end

section
/-! SUPPORT. The registers A, I and FlagZero (spec/10_state.md R18 to R20): which instructions leave them, and which carry
them along without effect. -/

namespace Sys2Proof.Machine

/-- The registers A, I and FlagZero each changed by a function, everything else kept. A new value in one of them is a constant
function there and `id` for the other two. -/
def State.mapRegs (fA fI : Word → Word) (fZ : Bool → Bool) (s : State) : State :=
  { s with A := fA s.A, I := fI s.I, Z := fZ s.Z }

/-- R93: an underflow writes none of the three registers. -/
theorem State.rtsUnderflow_regs (s : State) (policy : RtsUnderflowPolicy) :
    (s.rtsUnderflow policy).A = s.A ∧ (s.rtsUnderflow policy).I = s.I ∧ (s.rtsUnderflow policy).Z = s.Z := by
  cases policy <;> exact ⟨rfl, rfl, rfl⟩

/-- R93: an underflow reads none of the three registers. -/
theorem State.rtsUnderflow_mapRegs (s : State) (policy : RtsUnderflowPolicy) (fA fI : Word → Word) (fZ : Bool → Bool) :
    (s.mapRegs fA fI fZ).rtsUnderflow policy = (s.rtsUnderflow policy).mapRegs fA fI fZ := by
  cases policy <;> rfl

theorem jsrWith_regs {cfg : Config} {target : Word} {s t : State} (h : jsrWith cfg target s = .next t) :
    t.A = s.A ∧ t.I = s.I ∧ t.Z = s.Z := by
  rcases jsrWith_cases cfg s target with ⟨-, hj⟩ | ⟨-, hj⟩ <;>
  · rw [hj] at h
    cases h
    exact ⟨rfl, rfl, rfl⟩

theorem rtsWith_regs {cfg : Config} {s t : State} (h : rtsWith cfg s = .next t) :
    t.A = s.A ∧ t.I = s.I ∧ t.Z = s.Z := by
  rcases rtsWith_cases cfg s with ⟨-, hr⟩ | ⟨older, v, -, hr⟩
  · rw [hr] at h
    cases h
    exact s.rtsUnderflow_regs _
  · rw [hr] at h
    cases h
    exact ⟨rfl, rfl, rfl⟩

theorem jsrWith_mapRegs (cfg : Config) (target : Word) (s : State) (fA fI : Word → Word) (fZ : Bool → Bool) :
    jsrWith cfg target (s.mapRegs fA fI fZ) = mapNext (State.mapRegs fA fI fZ) (jsrWith cfg target s) := by
  rcases jsrWith_cases cfg s target with ⟨hd, hj⟩ | ⟨hd, hj⟩
  · rw [hj, jsrWith_full (s := s.mapRegs fA fI fZ) target hd]; rfl
  · rw [hj, jsrWith_room (s := s.mapRegs fA fI fZ) target hd]; rfl

theorem rtsWith_mapRegs (cfg : Config) (s : State) (fA fI : Word → Word) (fZ : Bool → Bool) :
    rtsWith cfg (s.mapRegs fA fI fZ) = mapNext (State.mapRegs fA fI fZ) (rtsWith cfg s) := by
  rcases rtsWith_cases cfg s with ⟨hs, hr⟩ | ⟨older, v, hs, hr⟩
  · rw [hr, rtsWith_empty (s := s.mapRegs fA fI fZ) hs, State.rtsUnderflow_mapRegs]; rfl
  · rw [hr, rtsWith_append (s := s.mapRegs fA fI fZ) hs]; rfl

/-- The instructions of machine control, control transfer and device I/O write none of the three registers. -/
theorem execWith_regs {cfg : Config} {i : Instr} {s t : State}
    (hi : i.mnemonic ∈ [.halt, .noop, .jump, .jmpz, .jsr, .rts, .bios]) (h : execWith cfg i s = .next t) :
    t.A = s.A ∧ t.I = s.I ∧ t.Z = s.Z := by
  cases i with
  | inca | deca | seta | setatom | seti | inci | cmpi => simp at hi
  | jsr target => exact jsrWith_regs h
  | rts => exact rtsWith_regs h
  | halt | noop | jump | jmpz | bios =>
    simp only [execWith_halt, execWith_noop, execWith_jump, execWith_jmpz, execWith_bios] at h
    cases h
    exact ⟨rfl, rfl, rfl⟩

/-- HALT, NOOP, JUMP, JSR and RTS carry all three registers along without effect. -/
theorem execWith_mapRegs {cfg : Config} {i : Instr} (hi : i.mnemonic ∈ [.halt, .noop, .jump, .jsr, .rts]) (s : State)
    (fA fI : Word → Word) (fZ : Bool → Bool) :
    execWith cfg i (s.mapRegs fA fI fZ) = mapNext (State.mapRegs fA fI fZ) (execWith cfg i s) := by
  cases i with
  | inca | deca | seta | setatom | seti | inci | cmpi | jmpz | bios => simp at hi
  | jsr target => exact jsrWith_mapRegs cfg target s fA fI fZ
  | rts => exact rtsWith_mapRegs cfg s fA fI fZ
  | halt | noop | jump => rfl

/-! ### A (R18) -/

/-- "no other instruction does": A is left by all but its four writers. -/
theorem execWith_keeps_A {cfg : Config} {i : Instr} {s t : State} (hi : i.mnemonic ∉ [.inca, .deca, .seta, .setatom])
    (h : execWith cfg i s = .next t) : t.A = s.A := by
  cases i with
  | inca | deca | seta | setatom => simp at hi
  | seti | inci | cmpi =>
    simp only [execWith_seti, execWith_inci, execWith_cmpi] at h
    cases h
    rfl
  | halt | noop | jump | jmpz | jsr | rts | bios => exact (execWith_regs (by simp) h).1

/-- SETA and SETATOM overwrite A without reading it. -/
theorem execWith_overwrites_A {cfg : Config} {i : Instr} (hi : i.mnemonic ∈ [.seta, .setatom]) (s : State) (a : Word) :
    execWith cfg i { s with A := a } = execWith cfg i s := by
  cases i with
  | seta n => simp only [execWith_seta]
  | setatom => simp only [execWith_setatom]
  | _ => simp at hi

theorem execWith_carries_A {cfg : Config} {i : Instr} (hi : i.mnemonic ∉ [.inca, .deca, .seta, .setatom, .bios])
    (s : State) (a : Word) :
    execWith cfg i { s with A := a } = mapNext (fun t => { t with A := a }) (execWith cfg i s) := by
  cases i with
  | inca | deca | seta | setatom | bios => simp at hi
  | seti | inci | cmpi | jmpz =>
    simp only [execWith_seti, execWith_inci, execWith_cmpi, execWith_jmpz, mapNext_next]
  | halt | noop | jump | jsr | rts => exact execWith_mapRegs (by simp) s (fun _ => a) id id

/-- R95: BIOS takes nothing of A but its low byte. -/
theorem State.lowByteA_congr {s : State} {a : Word} (h : a.toNat % 256 = s.A.toNat % 256) :
    State.lowByteA { s with A := a } = s.lowByteA := by
  simp only [State.lowByteA_eq]
  exact BitVec.eq_of_toNat_eq (by simpa using h)

theorem execWith_bios_carries_A (cfg : Config) (d g : Word) {s : State} {a : Word} (h : a.toNat % 256 = s.A.toNat % 256) :
    execWith cfg (.bios d g) { s with A := a } = mapNext (fun t => { t with A := a }) (execWith cfg (.bios d g) s) := by
  simp only [execWith_bios, mapNext_next, State.lowByteA_congr h]

theorem execWith_bios_writes (cfg : Config) (s : State) :
    execWith cfg (.bios (cfg.ioCode .ioWrite) (cfg.ioCode .targetStdout)) s =
      .next { s with P := s.P + 3, out := s.out ++ [BitVec.ofNat 8 s.A.toNat] } := by
  rw [execWith_bios, if_pos (isWriteToStdout_iff.mpr ⟨rfl, rfl⟩), State.lowByteA_eq]

/-- Settles O26: the writers' equations, the frame `execWith_keeps_A`, and the three ways an instruction can depend on A
(not at all because it overwrites it, not at all because it carries it, through the low byte). -/
theorem accumulatorWritersAndReaders : Obligations.AccumulatorWritersAndReaders := by
  intro cfg i s a
  refine ⟨by simp, by simp, by simp, by simp, ?stdout, fun hi t => execWith_keeps_A hi,
    fun hi => execWith_overwrites_A hi s a, fun hi => execWith_carries_A hi s a, ?bios⟩
  case stdout =>
    intro t h
    rw [execWith_bios_writes] at h
    cases h
    rfl
  case bios =>
    intro hi hbyte
    cases i with
    | bios d g => exact execWith_bios_carries_A cfg d g hbyte
    | _ => simp at hi

/-! ### I (R19) -/

/-- "no other instruction does": I is left by all but its two writers. -/
theorem execWith_keeps_I {cfg : Config} {i : Instr} {s t : State} (hi : i.mnemonic ∉ [.seti, .inci])
    (h : execWith cfg i s = .next t) : t.I = s.I := by
  cases i with
  | seti | inci => simp at hi
  | inca | deca | seta | setatom | cmpi =>
    simp only [execWith_inca, execWith_deca, execWith_seta, execWith_setatom, execWith_cmpi] at h
    cases h
    rfl
  | halt | noop | jump | jmpz | jsr | rts | bios => exact (execWith_regs (by simp) h).2.1

theorem execWith_carries_I {cfg : Config} {i : Instr} (hi : i.mnemonic ∉ [.seti, .inci, .setatom, .cmpi])
    (s : State) (x : Word) :
    execWith cfg i { s with I := x } = mapNext (fun t => { t with I := x }) (execWith cfg i s) := by
  cases i with
  | seti | inci | setatom | cmpi => simp at hi
  | inca | deca | seta | jmpz =>
    simp only [execWith_inca, execWith_deca, execWith_seta, execWith_jmpz, mapNext_next]
  | bios d g => simp only [execWith_bios, mapNext_next]; rfl
  | halt | noop | jump | jsr | rts => exact execWith_mapRegs (by simp) s id (fun _ => x) id

/-- Settles O27: the equations of SETI, INCI, SETATOM and CMPI, the frame `execWith_keeps_I`, and `execWith_carries_I`. -/
theorem indexWritersAndReaders : Obligations.IndexWritersAndReaders := by
  intro cfg i s x
  refine ⟨by simp, by simp, by simp, by simp, fun hi t => execWith_keeps_I hi, ?seti,
    fun hi => execWith_carries_I hi s x⟩
  case seti =>
    intro hi
    cases i with
    | seti n => simp only [execWith_seti]
    | _ => simp at hi

end Sys2Proof.Machine
end

section
/-! SUPPORT. The run status: what a step can make it (R25, R26), and what the host's operations do with it and with the fault
record (spec/70_reset_and_hazards.md R116, R119, R122). -/

namespace Sys2Proof.Machine

/-- R93: an underflow keeps the status or raises the fault. -/
theorem State.rtsUnderflow_status (s : State) (policy : RtsUnderflowPolicy) :
    (s.rtsUnderflow policy).status = s.status ∨
    (s.rtsUnderflow policy).status = .faulted .stackUnderflow s.P (s.mem.read s.P) := by
  cases policy with
  | fault => exact .inr rfl
  | continueKeepP | continueZeroP => exact .inl rfl

/-- R76: an unknown opcode keeps the status or raises the fault. -/
theorem State.unknownOpcode_status (s : State) (policy : UnknownOpcodePolicy) :
    (s.unknownOpcode policy).status = s.status ∨
    (s.unknownOpcode policy).status = .faulted .unknownOpcode s.P (s.mem.read s.P) := by
  cases policy with
  | fault => exact .inr rfl
  | noop => exact .inl rfl

/-- Every status an instruction can leave: the one before, Halted, or a fault that records p and the Word at p. -/
theorem execWith_status {cfg : Config} {i : Instr} {s t : State} (h : execWith cfg i s = .next t) :
    t.status = s.status ∨ t.status = .halted ∨ ∃ cause, t.status = .faulted cause s.P (s.mem.read s.P) := by
  cases i with
  | halt => cases h; exact .inr (.inl rfl)
  | jsr target =>
    rw [execWith_jsr] at h
    rcases jsrWith_cases cfg s target with ⟨-, hj⟩ | ⟨-, hj⟩
    · rw [hj] at h; cases h; exact .inr (.inr ⟨_, rfl⟩)
    · rw [hj] at h; cases h; exact .inl rfl
  | rts =>
    rw [execWith_rts] at h
    rcases rtsWith_cases cfg s with ⟨-, hr⟩ | ⟨older, v, -, hr⟩
    · rw [hr] at h
      cases h
      exact (s.rtsUnderflow_status _).imp_right fun hf => .inr ⟨_, hf⟩
    · rw [hr] at h; cases h; exact .inl rfl
  | noop | inca | deca | seta | setatom | seti | inci | cmpi | jump | jmpz | bios =>
    simp only [execWith_noop, execWith_inca, execWith_deca, execWith_seta, execWith_setatom, execWith_seti,
      execWith_inci, execWith_cmpi, execWith_jump, execWith_jmpz, execWith_bios] at h
    cases h
    exact .inl rfl

/-- Every status a step can leave. -/
theorem stepWith_status {cfg : Config} {s t : State} (h : stepWith cfg s = .next t) :
    t.status = .running ∨ t.status = .halted ∨ ∃ cause, t.status = .faulted cause s.P (s.mem.read s.P) := by
  obtain ⟨hs, ⟨i, -, -, hi⟩ | ⟨-, rfl⟩⟩ := stepWith_cases h
  · rw [← hs]
    exact execWith_status hi
  · rw [← hs]
    exact (s.unknownOpcode_status _).imp_right fun hf => .inr ⟨_, hf⟩

/-- R102: the record of a fault that a step takes. -/
theorem stepWith_faulted {cfg : Config} {s t : State} {cause : FaultCause} {addr word : Word}
    (h : stepWith cfg s = .next t) (ht : t.status = .faulted cause addr word) :
    addr = s.P ∧ word = s.mem.read s.P := by
  rcases stepWith_status h with hr | hh | ⟨c, hf⟩
  · rw [hr] at ht; cases ht
  · rw [hh] at ht; cases ht
  · rw [hf] at ht; cases ht; exact ⟨rfl, rfl⟩

/-- R26: there is a record exactly in a Faulted status. -/
theorem Status.faultRecord_eq_some {st : Status} {r : FaultRecord} :
    st.faultRecord = some r ↔ st = .faulted r.cause r.addr r.word := by
  cases st with
  | faulted c a w => cases r; simp [Status.faultRecord]
  | ready | running | halted => simp [Status.faultRecord]

theorem State.hostRead_running {s : State} (h : s.status = .running) : s.hostRead = none := if_pos h

theorem State.hostRead_not_running {s : State} (h : s.status ≠ .running) :
    s.hostRead = some { P := s.P, A := s.A, I := s.I, FlagZero := s.Z, S := s.stack, status := s.status,
                        faultRecord := s.status.faultRecord } := if_neg h

/-- What the host reads of the record in a Faulted state. -/
theorem State.hostRead_faulted {s : State} {cause : FaultCause} {addr word : Word}
    (h : s.status = .faulted cause addr word) :
    ∃ v, s.hostRead = some v ∧ v.faultRecord = some { cause := cause, addr := addr, word := word } :=
  ⟨_, State.hostRead_not_running (by simp [h]), Status.faultRecord_eq_some.mpr h⟩

/-- R103: Run does nothing in Faulted. -/
theorem State.hostRun_faulted {s : State} {cause : FaultCause} {addr word : Word}
    (h : s.status = .faulted cause addr word) : s.hostRun = some s := by
  simp only [State.hostRun, h]

/-- R36: exactly when a load succeeds, and what it makes of the state. -/
theorem State.hostLoad_eq_ok {s t : State} {ws : List Word} :
    s.hostLoad ws = .ok t ↔
      s.status ≠ .running ∧ ws.length ≤ 2 ^ 64 ∧ t = { s with mem := s.mem.writeWords 0 ws } := by
  unfold State.hostLoad
  split_ifs with hs hl
  · exact ⟨nofun, fun ⟨hns, _, _⟩ => absurd hs hns⟩
  · exact ⟨by rintro ⟨⟩; exact ⟨hs, hl, rfl⟩, by rintro ⟨-, -, rfl⟩; rfl⟩
  · exact ⟨nofun, fun ⟨_, hle, _⟩ => absurd hle hl⟩

/-- R71: a load of an image that succeeds is a load of its Words. -/
theorem State.hostLoadImage_eq_ok {s t : State} {file : Option (List Byte)} (h : s.hostLoadImage file = .ok t) :
    ∃ ws, s.hostLoad ws = .ok t := by
  cases file with
  | none => simp [State.hostLoadImage] at h
  | some bytes =>
    cases hd : decodeImage bytes with
    | error e => cases e; simp [State.hostLoadImage, hd] at h
    | ok ws => exact ⟨ws, by simpa [State.hostLoadImage, hd] using h⟩

/-- R36: a load changes no status. -/
theorem State.hostLoad_status {s t : State} {ws : List Word} (h : s.hostLoad ws = .ok t) : t.status = s.status := by
  obtain ⟨-, -, rfl⟩ := State.hostLoad_eq_ok.mp h
  rfl

/-- Settles O40: what the host reads by status, what each of its operations does to a Faulted status, and
`stepWith_faulted` for the step that enters Faulted. -/
theorem faultRecordReadableUntilReset : Obligations.FaultRecordReadableUntilReset := by
  intro s
  refine ⟨State.hostRead_running, ?view, ?operations, ?entry⟩
  case view =>
    intro hs
    refine ⟨_, State.hostRead_not_running hs, rfl, rfl, rfl, rfl, rfl, rfl, fun hrec => ?_⟩
    obtain ⟨r, hr⟩ := Option.ne_none_iff_exists'.mp hrec
    exact ⟨_, _, _, Status.faultRecord_eq_some.mp hr⟩
  case operations =>
    intro cause addr word hs
    refine ⟨State.hostRead_faulted hs, ?_, fun ws t => State.hostLoad_status, ?_, rfl⟩
    · intro t hrun
      rw [State.hostRun_faulted hs] at hrun
      cases hrun
      rfl
    · intro file t himage
      obtain ⟨ws, hload⟩ := State.hostLoadImage_eq_ok himage
      exact State.hostLoad_status hload
  case entry =>
    intro cfg t cause addr word hstep ht
    obtain ⟨rfl, rfl⟩ := stepWith_faulted hstep ht
    refine ⟨State.hostRead_faulted ht, ?_⟩
    rw [(stepWith_cases hstep).1]
    rfl

end Sys2Proof.Machine
end

section
/-! SUPPORT. Memory and the core (spec/20_memory.md R33, R34, R36): a step takes of memory only the Words at its read
addresses and carries the rest along, so no step writes a Word; and what the loader writes. -/

namespace Sys2Proof

/-- R52: every instruction, and an unknown opcode, has at least its opcode Word. -/
theorem Config.lengthOf_eq_succ (cfg : Config) (w : Word) : ∃ n, cfg.lengthOf w = n + 1 := by
  cases hm : cfg.mnemonicOf w with
  | none => exact ⟨0, by simp [Config.lengthOf, hm]⟩
  | some k => exact ⟨k.operandCount, by simp [Config.lengthOf, hm, Nat.add_comm]⟩

end Sys2Proof

namespace Sys2Proof.Machine

/-- The state with another memory and everything else kept. -/
def State.withMem (s : State) (m : Memory) : State := { s with mem := m }

@[simp] theorem State.withMem_mem (s : State) (m : Memory) : (s.withMem m).mem = m := rfl

/-- A result that carries `m` along has `m` as its memory. -/
theorem mem_of_mapNext_withMem {m : Memory} {t : State} {r : Result}
    (hr : r = mapNext (State.withMem · m) r) (h : r = .next t) : t.mem = m := by
  rw [h, mapNext_next] at hr
  injection hr with ht
  rw [ht, State.withMem_mem]

/-! ### What an instruction and an unknown opcode read -/

section
variable {s : State} {m : Memory} (hP : m.read s.P = s.mem.read s.P)
include hP

/-- R102: of memory, a fault's entry takes the Word at p alone. -/
theorem State.raiseFault_withMem (cause : FaultCause) :
    (s.withMem m).raiseFault cause = (s.raiseFault cause).withMem m := by
  simp only [State.raiseFault_eq, State.withMem, hP]

theorem State.rtsUnderflow_withMem (policy : RtsUnderflowPolicy) :
    (s.withMem m).rtsUnderflow policy = (s.rtsUnderflow policy).withMem m := by
  cases policy with
  | fault => exact State.raiseFault_withMem hP _
  | continueKeepP | continueZeroP => rfl

theorem State.unknownOpcode_withMem (policy : UnknownOpcodePolicy) :
    (s.withMem m).unknownOpcode policy = (s.unknownOpcode policy).withMem m := by
  cases policy with
  | fault => exact State.raiseFault_withMem hP _
  | noop => rfl

theorem jsrWith_withMem (cfg : Config) (target : Word) :
    jsrWith cfg target (s.withMem m) = mapNext (State.withMem · m) (jsrWith cfg target s) := by
  rcases jsrWith_cases cfg s target with ⟨hd, hj⟩ | ⟨hd, hj⟩
  · rw [hj, jsrWith_full (s := s.withMem m) target hd, State.raiseFault_withMem hP, mapNext_next]
  · rw [hj, jsrWith_room (s := s.withMem m) target hd]; rfl

theorem rtsWith_withMem (cfg : Config) :
    rtsWith cfg (s.withMem m) = mapNext (State.withMem · m) (rtsWith cfg s) := by
  rcases rtsWith_cases cfg s with ⟨hs, hr⟩ | ⟨older, v, hs, hr⟩
  · rw [hr, rtsWith_empty (s := s.withMem m) hs, State.rtsUnderflow_withMem hP, mapNext_next]
  · rw [hr, rtsWith_append (s := s.withMem m) hs]; rfl

/-- R33: with its operands fetched, an instruction takes of memory the opcode Word (for a fault record) and, for SETATOM
alone, the Word at I. -/
theorem execWith_withMem (cfg : Config) {i : Instr} (hI : i.mnemonic = .setatom → m.read s.I = s.mem.read s.I) :
    execWith cfg i (s.withMem m) = mapNext (State.withMem · m) (execWith cfg i s) := by
  cases i with
  | setatom =>
    simp only [execWith_setatom, mapNext_next, State.withMem, hI rfl]
  | jsr target => exact jsrWith_withMem hP cfg target
  | rts => exact rtsWith_withMem hP cfg
  | bios d g => simp only [execWith_bios, mapNext_next]; rfl
  | halt | noop | inca | deca | seta | seti | inci | cmpi | jump => rfl
  | jmpz target => simp only [execWith_jmpz, mapNext_next, State.withMem]

end

/-! ### What the fetch reads -/

/-- Successive fetches read their own addresses alone. -/
theorem State.fetchWords_withMem {m : Memory} (n : Nat) {s : State}
    (h : ∀ a ∈ fetchAddresses s.P n, m.read a = s.mem.read a) : (s.withMem m).fetchWords n = s.fetchWords n := by
  induction n generalizing s with
  | zero => rfl
  | succ n ih =>
    obtain ⟨hP, hrest⟩ := List.forall_mem_cons.mp h
    simp only [State.fetchWords]
    exact congrArg₂ List.cons hP (ih (s := s.advance) hrest)

/-- The opcode's address is read by every step. -/
theorem State.P_mem_readAddresses (s : State) (cfg : Config) : s.P ∈ s.readAddresses cfg := by
  obtain ⟨n, hn⟩ := cfg.lengthOf_eq_succ s.fetchedWord
  unfold State.readAddresses
  split
  · exact List.mem_singleton_self _
  · simp [hn, fetchAddresses]

/-- Every step but that of an overflowing JSR reads all the Words of its instruction. -/
theorem State.readAddresses_of_not_overflow {s : State} {cfg : Config}
    (h : ¬ (cfg.mnemonicOf s.fetchedWord = some .jsr ∧ s.stackFull cfg.stackDepth = true)) :
    s.readAddresses cfg = fetchAddresses s.P (cfg.lengthOf s.fetchedWord) ++
      (if cfg.mnemonicOf s.fetchedWord = some .setatom then [s.I] else []) :=
  if_neg h

/-- R33: the fetched instruction depends on memory only through the Words fetched. -/
theorem State.fetchInstr_withMem {s : State} {m : Memory} {cfg : Config} (hP : m.read s.P = s.mem.read s.P)
    (h : ∀ a ∈ fetchAddresses s.P (cfg.lengthOf s.fetchedWord), m.read a = s.mem.read a) :
    (s.withMem m).fetchInstr cfg = s.fetchInstr cfg := by
  have hw : (s.withMem m).fetchedWord = s.fetchedWord := hP
  rw [State.fetchInstr, hw, State.fetchWords_withMem _ h, State.fetchInstr]

/-- R51: the fetched instruction is one of the mnemonic that the opcode Word names, for every OPCODE. -/
theorem State.mnemonicOf_fetchedWord {s : State} {cfg : Config} {i : Instr} {rest : List Word}
    (h : s.fetchInstr cfg = .ok (i, rest)) : cfg.mnemonicOf s.fetchedWord = some i.mnemonic := by
  obtain ⟨n, hn⟩ := cfg.lengthOf_eq_succ s.fetchedWord
  rw [State.fetchInstr, hn, State.fetchWords, decode] at h
  cases hm : cfg.mnemonicOf s.fetchedWord with
  | none => simp [hm] at h
  | some k =>
    cases ho : Instr.ofOperands k (s.advance.fetchWords n) with
    | none => simp [hm, ho] at h
    | some r =>
      simp only [hm, ho, Except.ok.injEq] at h
      rw [(Instr.ofOperands_eq_some (h ▸ ho)).1]

/-! ### What a step reads -/

/-- A core that is not Running answers the model's stop, whatever it would run. -/
theorem stepWith_not_running {cfg : Config} {s : State} (h : s.status ≠ .running) :
    stepWith cfg s = .fault .notRunning := by
  cases hs : s.status with
  | running => exact absurd hs h
  | ready | halted | faulted => simp only [stepWith, State.stepBy, hs]

/-- R102: the step of a JSR on a full stack, whatever its operand. -/
theorem stepWith_overflow {cfg : Config} {s : State} (hs : s.status = .running)
    (hj : cfg.mnemonicOf s.fetchedWord = some .jsr) (hd : cfg.stackDepth = some s.stack.length) :
    stepWith cfg s = .next (s.raiseFault .stackOverflow) := by
  rw [stepWith, stepBy_running hs]
  rcases s.fetchInstr_cases cfg with ⟨i, hf, -⟩ | ⟨-, hu⟩
  · have hi : i.mnemonic = .jsr := Option.some.inj ((State.mnemonicOf_fetchedWord hf).symm.trans hj)
    cases i with
    | jsr target => rw [hf]; exact jsrWith_full target hd
    | _ => simp at hi
  · exact absurd (Config.opcode_of_mnemonicOf hj) (hu .jsr)

/-- R33 for a Running core that does not overflow: the same instruction is fetched and carries the memory along. -/
theorem stepWith_withMem_of_fetch {cfg : Config} {s : State} {m : Memory} (hs : s.status = .running)
    (hP : m.read s.P = s.mem.read s.P)
    (hfetch : ∀ a ∈ fetchAddresses s.P (cfg.lengthOf s.fetchedWord), m.read a = s.mem.read a)
    (hI : cfg.mnemonicOf s.fetchedWord = some .setatom → m.read s.I = s.mem.read s.I) :
    stepWith cfg (s.withMem m) = mapNext (State.withMem · m) (stepWith cfg s) := by
  rw [stepWith, stepWith, stepBy_running (s := s.withMem m) hs, stepBy_running hs, State.fetchInstr_withMem hP hfetch]
  rcases s.fetchInstr_cases cfg with ⟨i, hf, -⟩ | ⟨hf, -⟩
  · rw [hf]
    exact execWith_withMem hP cfg fun hi => hI (hi ▸ State.mnemonicOf_fetchedWord hf)
  · rw [hf]
    exact congrArg Host.Outcome.next (State.unknownOpcode_withMem hP _)

/-- Settles O33, by the step's three shapes: not Running, a JSR that overflows (`stepWith_overflow`, which fetches no
operand), and every other step (`stepWith_withMem_of_fetch`). -/
theorem stepReadsOnlyItsWords : Obligations.StepReadsOnlyItsWords := by
  intro cfg s m h
  have hP : m.read s.P = s.mem.read s.P := h _ (s.P_mem_readAddresses cfg)
  change stepWith cfg (s.withMem m) = mapNext (State.withMem · m) (stepWith cfg s)
  by_cases hs : s.status = .running
  · by_cases hover : cfg.mnemonicOf s.fetchedWord = some .jsr ∧ s.stackFull cfg.stackDepth = true
    · obtain ⟨hj, hfull⟩ := hover
      have hd := State.stackFull_iff.mp hfull
      have hj' : cfg.mnemonicOf (s.withMem m).fetchedWord = some .jsr := (congrArg cfg.mnemonicOf hP).trans hj
      rw [stepWith_overflow hs hj hd, stepWith_overflow (s := s.withMem m) hs hj' hd, State.raiseFault_withMem hP,
        mapNext_next]
    · rw [State.readAddresses_of_not_overflow hover] at h
      obtain ⟨hfetch, hI⟩ := List.forall_mem_append.mp h
      exact stepWith_withMem_of_fetch hs hP hfetch fun hm => hI s.I (by simp [hm])
  · rw [stepWith_not_running hs, stepWith_not_running (s := s.withMem m) hs]
    rfl

/-! ### No instruction and no step writes memory (R34) -/

/-- R34: an instruction that carries every memory along carries its own, so it leaves it as it was. -/
theorem execWith_mem {cfg : Config} {i : Instr} {s t : State} (h : execWith cfg i s = .next t) : t.mem = s.mem :=
  mem_of_mapNext_withMem (execWith_withMem (s := s) (m := s.mem) rfl cfg fun _ => rfl) h

theorem stepWith_mem {cfg : Config} {s t : State} (h : stepWith cfg s = .next t) : t.mem = s.mem :=
  mem_of_mapNext_withMem (stepReadsOnlyItsWords cfg s s.mem fun _ _ => rfl) h

/-- Settles O25: `execWith_mem` and `stepWith_mem`, which read the frame off the rules on what is read. -/
theorem coreNeverWritesMemory : Obligations.CoreNeverWritesMemory := by
  refine ⟨?instruction, ?step⟩
  case instruction =>
    intro i s t h a
    rw [← execWith_default] at h
    rw [execWith_mem h]
  case step =>
    intro cfg s t h a
    rw [stepWith_mem h]

/-! ### The loader (R36) -/

/-- R119: Run changes no memory. -/
theorem State.hostRun_mem {s t : State} (h : s.hostRun = some t) : t.mem = s.mem := by
  cases hs : s.status with
  | running => simp [State.hostRun, hs] at h
  | ready | halted | faulted =>
    simp only [State.hostRun, hs] at h
    cases h
    rfl

/-- R36: Words written from address 0 on stand at their own indices. -/
theorem Memory.read_writeWords_zero_of_lt {m : Memory} {ws : List Word} (hm : m.wf = true) (hl : ws.length ≤ 2 ^ 64)
    {k : Nat} (hk : k < ws.length) : (m.writeWords 0 ws).read (BitVec.ofNat 64 k) = ws[k] := by
  have haddr : (BitVec.ofNat 64 k - 0).toNat = k := by
    rw [sub_zero, BitVec.toNat_ofNat, Nat.mod_eq_of_lt (by omega)]
  rw [Memory.read_writeWords ws m 0 _ hm hl, haddr, List.getElem?_eq_getElem hk, Option.getD_some]

/-- R36: the addresses past the Words written from 0 on keep theirs. -/
theorem Memory.read_writeWords_zero_of_le {m : Memory} {ws : List Word} (hm : m.wf = true) (hl : ws.length ≤ 2 ^ 64)
    {a : Word} (ha : ws.length ≤ a.toNat) : (m.writeWords 0 ws).read a = m.read a := by
  rw [Memory.read_writeWords ws m 0 a hm hl, sub_zero, List.getElem?_eq_none ha, Option.getD_none]

/-- Settles O44: `State.hostLoad_eq_ok` for when a load happens and what it makes of the registers, the two reads above
for what it makes of memory, and the frame of the step and of Run. -/
theorem loadPlacesWordsFromZero : Obligations.LoadPlacesWordsFromZero := by
  intro s ws
  refine ⟨?running, fun cfg => coreNeverWritesMemory.2 cfg s, ?run, fun a => Memory.read_empty a, ?load⟩
  case running =>
    intro hs t h
    exact (State.hostLoad_eq_ok.mp h).1 hs
  case run =>
    intro t h a
    rw [State.hostRun_mem h]
  case load =>
    intro hs hm hl
    exact ⟨_, State.hostLoad_eq_ok.mpr ⟨hs, hl, rfl⟩, fun k hk => Memory.read_writeWords_zero_of_lt hm hl hk,
      fun a ha => Memory.read_writeWords_zero_of_le hm hl ha, rfl, rfl, rfl, rfl, rfl, rfl, rfl⟩

end Sys2Proof.Machine
end

section
/-! SUPPORT. The binary image codec (spec/30_encoding.md R68 to R71): a Word and its 8-byte group, the image and its bytes,
and every byte sequence as an image followed by a partial group. -/

namespace Sys2Proof.Machine

/-! ### One group -/

/-- R68: bits `63 - 8j : 56 - 8j` by shift and remainder. -/
theorem imageByte_eq_ofNat (w : Word) (j : Nat) : imageByte w j = BitVec.ofNat 8 (w.toNat >>> (56 - 8 * j)) := rfl

@[simp] theorem length_encodeWord (w : Word) : (encodeWord w).length = 8 := rfl

theorem getElem?_encodeWord (w : Word) {j : Nat} (hj : j < 8) : (encodeWord w)[j]? = some (imageByte w j) := by
  interval_cases j <;> rfl

/-- R68, R69: adjacent bit ranges of a Word join up to the whole Word. -/
theorem wordOfBytes_imageByte (w : Word) :
    wordOfBytes (imageByte w 0) (imageByte w 1) (imageByte w 2) (imageByte w 3) (imageByte w 4) (imageByte w 5)
      (imageByte w 6) (imageByte w 7) = w := by
  simp only [wordOfBytes, imageByte, BitVec.extractLsb'_append_extractLsb'_eq_extractLsb']
  exact BitVec.extractLsb'_eq_self

/-- R68, R69: each byte's bit range of the joined Word lies in that byte alone. -/
theorem encodeWord_wordOfBytes (b0 b1 b2 b3 b4 b5 b6 b7 : Byte) :
    encodeWord (wordOfBytes b0 b1 b2 b3 b4 b5 b6 b7) = [b0, b1, b2, b3, b4, b5, b6, b7] := by
  simp (disch := omega) only [encodeWord, wordOfBytes, imageByte, BitVec.extractLsb'_append_eq_of_le,
    BitVec.extractLsb'_append_eq_of_add_le]
  simp

/-- R69: every group of 8 bytes is the group of a Word. -/
theorem exists_encodeWord_eq {group : List Byte} (h : group.length = 8) : ∃ w, encodeWord w = group :=
  match group, h with
  | [_, _, _, _, _, _, _, _], _ => ⟨_, encodeWord_wordOfBytes ..⟩

theorem toNat_append_byte {n : Nat} (x : BitVec n) (b : Byte) : (x ++ b).toNat = x.toNat * 2 ^ 8 + b.toNat := by
  rw [BitVec.toNat_append, ← Nat.shiftLeft_add_eq_or_of_lt b.isLt, Nat.shiftLeft_eq]

theorem toNat_wordOfBytes (b0 b1 b2 b3 b4 b5 b6 b7 : Byte) :
    (wordOfBytes b0 b1 b2 b3 b4 b5 b6 b7).toNat =
      b0.toNat * 2 ^ 56 + b1.toNat * 2 ^ 48 + b2.toNat * 2 ^ 40 + b3.toNat * 2 ^ 32 + b4.toNat * 2 ^ 24 +
        b5.toNat * 2 ^ 16 + b6.toNat * 2 ^ 8 + b7.toNat := by
  simp only [wordOfBytes, toNat_append_byte]
  omega

/-- R69: a Word is the sum of the bytes of its group, byte j weighted by 2^(8(7 - j)). -/
theorem toNat_eq_sum_imageByte (w : Word) :
    w.toNat = ((List.range 8).map fun j => (imageByte w j).toNat * 2 ^ (8 * (7 - j))).sum := by
  conv_lhs => rw [← wordOfBytes_imageByte w, toNat_wordOfBytes]
  simp only [List.range_succ, List.range_zero, List.nil_append, List.map_append, List.map_cons, List.map_nil,
    List.sum_append, List.sum_cons, List.sum_nil, add_assoc, Nat.reduceMul, Nat.reduceSub, pow_zero, mul_one, add_zero]

/-! ### The image and its bytes -/

theorem length_encodeImage (ws : List Word) : (encodeImage ws).length = 8 * ws.length := by
  induction ws with
  | nil => rfl
  | cons w ws ih => simp [encodeImage, ih]; omega

/-- R68: the image's byte 8k + j is byte j of Word k. -/
theorem getElem?_encodeImage {ws : List Word} {k j : Nat} (h : k < ws.length) (hj : j < 8) :
    (encodeImage ws)[8 * k + j]? = some (imageByte ws[k] j) := by
  induction ws generalizing k with
  | nil => simp at h
  | cons w ws ih =>
    cases k with
    | zero =>
      rw [encodeImage, List.getElem?_append_left (by simpa using hj)]
      simpa using getElem?_encodeWord w hj
    | succ k =>
      have hpast : 8 * (k + 1) + j - (encodeWord w).length = 8 * k + j := by simp; omega
      rw [encodeImage, List.getElem?_append_right (by simp; omega), hpast]
      exact ih _

/-! ### The decoder -/

theorem decodeImage_encodeWord_append (w : Word) (bytes : List Byte) :
    decodeImage (encodeWord w ++ bytes) = (decodeImage bytes).map (w :: ·) := by
  simp only [encodeWord, List.cons_append, List.nil_append, decodeImage, wordOfBytes_imageByte]
  cases decodeImage bytes <;> rfl

/-- R69: the decoder reads the Words of an image and goes on with what follows it. -/
theorem decodeImage_encodeImage_append (ws : List Word) (bytes : List Byte) :
    decodeImage (encodeImage ws ++ bytes) = (decodeImage bytes).map (ws ++ ·) := by
  induction ws with
  | nil => cases h : decodeImage bytes <;> simp [encodeImage, h, Except.map]
  | cons w ws ih =>
    rw [encodeImage, List.append_assoc, decodeImage_encodeWord_append, ih]
    cases decodeImage bytes <;> rfl

theorem decodeImage_encodeImage (ws : List Word) : decodeImage (encodeImage ws) = .ok ws := by
  simpa [decodeImage, Except.map] using decodeImage_encodeImage_append ws []

/-- R69: a partial group alone is the error. -/
theorem decodeImage_of_length_lt {bytes : List Byte} (hne : bytes ≠ []) (hlt : bytes.length < 8) :
    decodeImage bytes = .error .truncatedInput := by
  unfold decodeImage
  split
  · exact absurd rfl hne
  · exact absurd hlt (by simp)
  · rfl

/-- R69: every byte sequence is an image followed by fewer than 8 bytes. -/
theorem exists_encodeImage_append (bytes : List Byte) :
    ∃ ws tail, bytes = encodeImage ws ++ tail ∧ tail.length < 8 := by
  by_cases hlt : bytes.length < 8
  · exact ⟨[], bytes, rfl, hlt⟩
  · obtain ⟨w, hw⟩ := exists_encodeWord_eq (group := bytes.take 8) (by simp; omega)
    obtain ⟨ws, tail, hrest, htail⟩ := exists_encodeImage_append (bytes.drop 8)
    refine ⟨w :: ws, tail, ?_, htail⟩
    rw [encodeImage, List.append_assoc, hw, ← hrest, List.take_append_drop]
termination_by bytes.length
decreasing_by simp; omega

/-- R69: the decoder fails on every sequence that ends in a partial group. -/
theorem decodeImage_of_partial_group {bytes : List Byte} (h : bytes.length % 8 ≠ 0) :
    decodeImage bytes = .error .truncatedInput := by
  obtain ⟨ws, tail, rfl, hlt⟩ := exists_encodeImage_append bytes
  have hne : tail ≠ [] := by
    rintro rfl
    simp [length_encodeImage] at h
  rw [decodeImage_encodeImage_append, decodeImage_of_length_lt hne hlt]
  rfl

/-- R68, R69: a sequence of whole groups is an image. -/
theorem exists_encodeImage_eq {bytes : List Byte} (h : bytes.length % 8 = 0) : ∃ ws, encodeImage ws = bytes := by
  obtain ⟨ws, tail, rfl, hlt⟩ := exists_encodeImage_append bytes
  have htail : tail = [] := by
    rw [List.length_append, length_encodeImage] at h
    exact List.length_eq_zero_iff.mp (by omega)
  exact ⟨ws, by rw [htail, List.append_nil]⟩

/-- R69: Word k is the weighted sum of the bytes at 8k + j. -/
theorem toNat_eq_sum_encodeImage {ws : List Word} {k : Nat} (h : k < ws.length) :
    ws[k].toNat = ((List.range 8).map fun j => ((encodeImage ws).getD (8 * k + j) 0).toNat * 2 ^ (8 * (7 - j))).sum := by
  rw [toNat_eq_sum_imageByte]
  refine congrArg List.sum (List.map_congr_left fun j hj => ?_)
  rw [List.getD_eq_getElem?_getD, getElem?_encodeImage h (List.mem_range.mp hj), Option.getD_some]

/-! ### The load of an image (R71) -/

theorem State.hostLoadImage_encodeImage (s : State) (ws : List Word) :
    s.hostLoadImage (some (encodeImage ws)) = s.hostLoad ws := by
  rw [State.hostLoadImage, decodeImage_encodeImage]

theorem State.hostLoadImage_of_partial_group (s : State) {bytes : List Byte} (h : bytes.length % 8 ≠ 0) :
    s.hostLoadImage (some bytes) = .error .truncatedInput := by
  rw [State.hostLoadImage, decodeImage_of_partial_group h]

/-! ### The obligations -/

/-- Settles O51: every byte sequence is an image followed by a partial group (`exists_encodeImage_append`), and an image
decodes to its Words. -/
theorem imageDecodeSumsGroups : Obligations.ImageDecodeSumsGroups := by
  intro bytes
  refine ⟨decodeImage_of_partial_group, fun h => ?_⟩
  obtain ⟨ws, rfl⟩ := exists_encodeImage_eq h
  exact ⟨ws, decodeImage_encodeImage ws, (length_encodeImage ws).symm, fun k hk => toNat_eq_sum_encodeImage hk⟩

/-- Settles O49: the decoder reads an image's Words and then the empty sequence. -/
theorem imageRoundTrip : Obligations.ImageRoundTrip :=
  decodeImage_encodeImage

/-- Settles O50, by the image's length and its bytes, whose bits the shift selects. -/
theorem imageBytesAreBigEndian : Obligations.ImageBytesAreBigEndian := by
  intro ws
  refine ⟨length_encodeImage ws, fun k j hk hj => ?_⟩
  rw [← imageByte_eq_ofNat]
  exact getElem?_encodeImage hk hj

/-- Settles O52, by the decoder's round trip and its error on a partial group. -/
theorem imageLoadIsWordLoad : Obligations.ImageLoadIsWordLoad :=
  fun s => ⟨s.hostLoadImage_encodeImage, rfl, fun _ h => s.hostLoadImage_of_partial_group h⟩

end Sys2Proof.Machine
end

section
/-! SUPPORT. An unknown opcode word under each UNKNOWN_OPCODE_POLICY (spec/40_fetch_execute.md R76). -/

namespace Sys2Proof.Machine

/-- R76, R102: policy `fault` records p and the Word at p, and leaves P past that Word. -/
theorem State.unknownOpcode_fault (s : State) :
    s.unknownOpcode .fault = { s with P := s.P + 1, status := .faulted .unknownOpcode s.P (s.mem.read s.P) } :=
  s.raiseFault_eq .unknownOpcode

/-- R76: policy `noop` steps over the one Word and changes nothing else. -/
theorem State.unknownOpcode_noop (s : State) : s.unknownOpcode .noop = { s with P := s.P + 1 } := rfl

/-- Settles O23: the step on an unknown word is `State.unknownOpcode` (`stepWith_unknown`), read off for each policy. -/
theorem unknownOpcodeFollowsPolicy : Obligations.UnknownOpcodeFollowsPolicy := by
  refine ⟨rfl, fun cfg s hs hu => ?_⟩
  have hstep := stepWith_unknown hs hu
  cases hp : cfg.unknownOpcodePolicy with
  | fault => rw [hstep, hp, State.unknownOpcode_fault]
  | noop => rw [hstep, hp, State.unknownOpcode_noop]

end Sys2Proof.Machine
end

section
/-! SUPPORT. Machine control (spec/41_machine_control.md R80, R81): the step of a core whose Words at P are an instruction's
encoding, the run loop one step at a time, and HALT and NOOP. -/

namespace Sys2Proof.Machine

/-! ### The step and the run loop -/

/-- R72 to R75: a Running core executes the instruction whose Words stand from P on. -/
theorem stepWith_of_wordsAt {cfg : Config} {s : State} {i : Instr} (hc : cfg.wf = true) (hs : s.status = .running)
    (h : WordsAt s.mem s.P (encode cfg i)) : stepWith cfg s = execWith cfg i s := by
  rw [stepWith, stepBy_running hs, State.fetchInstr_of_wordsAt hc h]

/-- R47: the encoding of an instruction without operands is its opcode Word. -/
theorem encode_of_no_operands (cfg : Config) {i : Instr} (hi : i.operands = []) :
    encode cfg i = [cfg.opcode i.mnemonic] := by
  rw [encode, hi]

/-- Format F0: an instruction without operands is executed as soon as its opcode Word stands at P. -/
theorem stepWith_of_opcode {cfg : Config} {s : State} {i : Instr} (hi : i.operands = []) (hc : cfg.wf = true)
    (hs : s.status = .running) (h : s.mem.read s.P = cfg.opcode i.mnemonic) : stepWith cfg s = execWith cfg i s := by
  refine stepWith_of_wordsAt hc hs ?_
  rw [encode_of_no_operands cfg hi]
  exact ⟨h, trivial⟩

/-- R78: the loop takes the step that is enabled and goes on from its next state. -/
theorem runLoop_succ_of_next {cfg : Config} {s t : State} (h : stepWith cfg s = .next t) (n : Nat) :
    runLoop cfg (n + 1) s = runLoop cfg n t := by
  simp only [runLoop, h]

/-- R79: the loop has ended where the status is not Running. -/
theorem runLoop_of_not_running {cfg : Config} {s : State} (h : s.status ≠ .running) (n : Nat) :
    runLoop cfg n s = s := by
  cases n with
  | zero => rfl
  | succ n => simp only [runLoop, stepWith_not_running h]

/-- R119: Run makes a Halted core Running at its P. -/
theorem State.hostRun_halted {s : State} (h : s.status = .halted) : s.hostRun = some { s with status := .running } := by
  simp only [State.hostRun, h, State.setStatus]

/-! ### HALT and NOOP -/

/-- Settles O8: the step is HALT's execution (`stepWith_of_opcode`), its next state is Halted, so the loop ends there and Run
gives back the status the core had before. -/
theorem haltStopsPastItself : Obligations.HaltStopsPastItself := by
  intro s
  refine ⟨(execWith_default .halt s).symm.trans (execWith_halt _ s), fun cfg =>
    ⟨encode_of_no_operands cfg rfl, fun hc hs hP => ?_⟩⟩
  have hstep : stepWith cfg s = .next { s with P := s.P + 1, status := .halted } :=
    (stepWith_of_opcode (i := .halt) rfl hc hs hP).trans (execWith_halt cfg s)
  refine ⟨hstep, fun k => ?run_ends, ?run_resumes⟩
  case run_ends =>
    rw [runLoop_succ_of_next hstep]
    exact runLoop_of_not_running (by simp) k
  case run_resumes =>
    rw [State.hostRun_halted rfl, ← hs]

/-- Settles O9: the step is NOOP's execution (`stepWith_of_opcode`), which only advances P. -/
theorem noopOnlyAdvances : Obligations.NoopOnlyAdvances := by
  intro s
  refine ⟨(execWith_default .noop s).symm.trans (execWith_noop _ s), fun cfg =>
    ⟨encode_of_no_operands cfg rfl, fun hc hs hP => ?_⟩⟩
  exact (stepWith_of_opcode (i := .noop) rfl hc hs hP).trans (execWith_noop cfg s)

end Sys2Proof.Machine
end

section
/-! SUPPORT. The accumulator instructions (spec/42_accumulator.md R82 to R85): INCA, DECA, SETA, SETATOM, and the run over
pairs INCA DECA. -/

namespace Sys2Proof

/-- R11: adding 1 to a Word, written with the modulo. -/
theorem Word.add_one_eq_ofNat_mod (w : Word) : w + 1 = BitVec.ofNat 64 ((w.toNat + 1) % 2 ^ 64) := by
  apply BitVec.eq_of_toNat_eq
  rw [BitVec.toNat_add, BitVec.toNat_ofNat, Nat.mod_mod]
  rfl

/-- R11: subtracting 1 from a Word, written with the modulo. -/
theorem Word.sub_one_eq_ofNat_mod (w : Word) : w - 1 = BitVec.ofNat 64 ((w.toNat + (2 ^ 64 - 1)) % 2 ^ 64) := by
  apply BitVec.eq_of_toNat_eq
  rw [BitVec.toNat_sub, BitVec.toNat_ofNat, Nat.mod_mod, Nat.add_comm w.toNat]
  rfl

end Sys2Proof

namespace Sys2Proof.Machine

/-- An equation of the parametric machine read at the default parameters. -/
theorem exec_of_execWith {i : Instr} {s : State} {r : Result} (h : execWith Config.default i s = r) : exec i s = r :=
  (execWith_default i s).symm.trans h

/-- Format F1: an instruction with one operand is executed when its opcode Word and that operand stand from P on. -/
theorem stepWith_of_opcode_operand {cfg : Config} {s : State} {i : Instr} {n : Word} (hi : i.operands = [n])
    (hc : cfg.wf = true) (hs : s.status = .running) (hop : s.mem.read s.P = cfg.opcode i.mnemonic)
    (hn : s.mem.read (s.P + 1) = n) : stepWith cfg s = execWith cfg i s := by
  refine stepWith_of_wordsAt hc hs ?_
  rw [encode, hi]
  exact ⟨hop, hn, trivial⟩

/-! ### INCA and DECA -/

/-- R82: INCA's next state with the modulo written out. -/
theorem execWith_inca_mod (cfg : Config) (s : State) :
    execWith cfg .inca s = .next { s with P := s.P + 1, A := BitVec.ofNat 64 ((s.A.toNat + 1) % 2 ^ 64) } := by
  rw [execWith_inca, Word.add_one_eq_ofNat_mod s.A]

/-- R83: DECA's next state with the modulo written out. -/
theorem execWith_deca_mod (cfg : Config) (s : State) :
    execWith cfg .deca s =
      .next { s with P := s.P + 1, A := BitVec.ofNat 64 ((s.A.toNat + (2 ^ 64 - 1)) % 2 ^ 64) } := by
  rw [execWith_deca, Word.sub_one_eq_ofNat_mod s.A]

/-- R82, R83: DECA after INCA gives back A. -/
theorem execWith_deca_after_inca (cfg : Config) (s : State) :
    execWith cfg .deca { s with P := s.P + 1, A := s.A + 1 } = .next { s with P := s.P + 2 } := by
  simp only [execWith_deca, BitVec.add_sub_cancel, BitVec.add_assoc]
  rfl

/-- R82, R83: INCA after DECA gives back A. -/
theorem execWith_inca_after_deca (cfg : Config) (s : State) :
    execWith cfg .inca { s with P := s.P + 1, A := s.A - 1 } = .next { s with P := s.P + 2 } := by
  simp only [execWith_inca, BitVec.sub_add_cancel, BitVec.add_assoc]
  rfl

/-- Two steps of the loop over INCA DECA move P past the pair and change nothing else. -/
theorem runLoop_inca_deca {cfg : Config} {s : State} (hc : cfg.wf = true) (hs : s.status = .running)
    (hinca : s.mem.read s.P = cfg.opcode .inca) (hdeca : s.mem.read (s.P + 1) = cfg.opcode .deca) (n : Nat) :
    runLoop cfg (n + 2) s = runLoop cfg n { s with P := s.P + 2 } := by
  have hfirst : stepWith cfg s = .next { s with P := s.P + 1, A := s.A + 1 } :=
    (stepWith_of_opcode (i := .inca) rfl hc hs hinca).trans (execWith_inca cfg s)
  have hsecond : stepWith cfg { s with P := s.P + 1, A := s.A + 1 } = .next { s with P := s.P + 2 } :=
    (stepWith_of_opcode (i := .deca) (s := { s with P := s.P + 1, A := s.A + 1 }) rfl hc hs hdeca).trans
      (execWith_deca_after_inca cfg s)
  rw [runLoop_succ_of_next hfirst, runLoop_succ_of_next hsecond]

/-- R82, R83: a run over `n` pairs INCA DECA moves P past them and changes nothing else. -/
theorem runLoop_inca_deca_pairs {cfg : Config} (hc : cfg.wf = true) (n : Nat) {s : State} (hs : s.status = .running)
    (h : WordsAt s.mem s.P (List.replicate n [cfg.opcode .inca, cfg.opcode .deca]).flatten) :
    runLoop cfg (2 * n) s = { s with P := s.P + BitVec.ofNat 64 (2 * n) } := by
  induction n generalizing s with
  | zero => simp [runLoop]
  | succ n ih =>
    obtain ⟨hinca, hdeca, hrest⟩ := h
    have hpast : s.P + 2 + BitVec.ofNat 64 (2 * n) = s.P + BitVec.ofNat 64 (2 * (n + 1)) := by
      rw [BitVec.add_assoc, Nat.mul_succ, Nat.add_comm, BitVec.ofNat_add]
      rfl
    rw [BitVec.add_assoc] at hrest
    rw [Nat.mul_succ, runLoop_inca_deca hc hs hinca hdeca, ih (s := { s with P := s.P + 2 }) hs hrest, hpast]
    rfl

/-- Settles O10: the step is INCA's execution, and the run over pairs INCA DECA is by induction on their number
(`runLoop_inca_deca_pairs`). -/
theorem incaIncrementsAModulo : Obligations.IncaIncrementsAModulo := by
  intro s
  refine ⟨exec_of_execWith (execWith_inca_mod _ s), fun cfg =>
    ⟨encode_of_no_operands cfg rfl, fun hc hs hP => ?step, fun n hc hs => runLoop_inca_deca_pairs hc n hs⟩⟩
  case step => exact (stepWith_of_opcode (i := .inca) rfl hc hs hP).trans (execWith_inca_mod cfg s)

/-- Settles O11: the step is DECA's execution, and INCA after it gives A back (`execWith_inca_after_deca`). -/
theorem decaDecrementsAModulo : Obligations.DecaDecrementsAModulo := by
  intro s
  refine ⟨exec_of_execWith (execWith_deca_mod _ s), ?inverse, fun cfg =>
    ⟨encode_of_no_operands cfg rfl, fun hc hs hP => ?step⟩⟩
  case inverse =>
    exact ⟨_, _, exec_of_execWith (execWith_deca _ s), exec_of_execWith (execWith_inca_after_deca _ s), rfl⟩
  case step => exact (stepWith_of_opcode (i := .deca) rfl hc hs hP).trans (execWith_deca_mod cfg s)

/-! ### SETA and SETATOM -/

/-- Settles O12: with its operand at p + 1 the step is SETA's execution (`stepWith_of_opcode_operand`). -/
theorem setaLoadsItsOperand : Obligations.SetaLoadsItsOperand := by
  intro n s
  refine ⟨exec_of_execWith (execWith_seta _ s n), fun cfg => ⟨rfl, fun hc hs hP hn => ?_⟩⟩
  exact (stepWith_of_opcode_operand (i := .seta n) rfl hc hs hP hn).trans (execWith_seta cfg s n)

/-- R32, R36: after a load into reset memory, an address past the loaded Words reads 0. -/
theorem Memory.read_eq_zero_of_reset_load {ws : List Word} {t : State} (h : State.reset.hostLoad ws = .ok t) {a : Word}
    (ha : ws.length ≤ a.toNat) : t.mem.read a = 0 := by
  obtain ⟨-, hl, rfl⟩ := State.hostLoad_eq_ok.mp h
  exact (Memory.read_writeWords_zero_of_le Memory.wf_reset hl ha).trans (Memory.read_empty a)

/-- Settles O13: the step is SETATOM's execution, which reads memory at I, and that read is 0 past a load into reset memory
(`Memory.read_eq_zero_of_reset_load`). -/
theorem setatomLoadsFromIndexedAddress : Obligations.SetatomLoadsFromIndexedAddress := by
  intro s
  have hexec : exec .setatom s = .next { s with P := s.P + 1, A := s.mem.read s.I } :=
    exec_of_execWith (execWith_setatom _ s)
  refine ⟨hexec, fun ws t hload hmem hI => ?never_loaded, fun cfg =>
    ⟨encode_of_no_operands cfg rfl, fun hc hs hP => ?step⟩⟩
  case never_loaded => rw [hexec, hmem, Memory.read_eq_zero_of_reset_load hload hI, ← hmem]
  case step => exact (stepWith_of_opcode (i := .setatom) rfl hc hs hP).trans (execWith_setatom cfg s)

end Sys2Proof.Machine
end

section
/-! SUPPORT. The index and compare instructions (spec/43_index_compare.md R86 to R88): SETI, INCI and CMPI. -/

namespace Sys2Proof.Machine

/-- R87: INCI's next state with the modulo written out. -/
theorem execWith_inci_mod (cfg : Config) (s : State) :
    execWith cfg .inci s = .next { s with P := s.P + 1, I := BitVec.ofNat 64 ((s.I.toNat + 1) % 2 ^ 64) } := by
  rw [execWith_inci, Word.add_one_eq_ofNat_mod s.I]

/-- Settles O14: with its operand at p + 1 the step is SETI's execution (`stepWith_of_opcode_operand`). -/
theorem setiLoadsItsOperand : Obligations.SetiLoadsItsOperand := by
  intro n s
  refine ⟨exec_of_execWith (execWith_seti _ s n), fun cfg => ⟨rfl, fun hc hs hP hn => ?step⟩⟩
  case step => exact (stepWith_of_opcode_operand (i := .seti n) rfl hc hs hP hn).trans (execWith_seti cfg s n)

/-- Settles O15: the step is INCI's execution (`stepWith_of_opcode`), whose sum wraps (`execWith_inci_mod`). -/
theorem inciIncrementsIModulo : Obligations.InciIncrementsIModulo := by
  intro s
  refine ⟨exec_of_execWith (execWith_inci_mod _ s), fun cfg =>
    ⟨encode_of_no_operands cfg rfl, fun hc hs hP => ?step⟩⟩
  case step => exact (stepWith_of_opcode (i := .inci) rfl hc hs hP).trans (execWith_inci_mod cfg s)

/-- Settles O16: with its operand at p + 1 the step is CMPI's execution (`stepWith_of_opcode_operand`), which writes the
comparison of the operand with I. -/
theorem cmpiSetsFlagZeroToEquality : Obligations.CmpiSetsFlagZeroToEquality := by
  intro n s
  refine ⟨exec_of_execWith (execWith_cmpi _ s n), fun cfg => ⟨rfl, fun hc hs hP hn => ?step⟩⟩
  case step => exact (stepWith_of_opcode_operand (i := .cmpi n) rfl hc hs hP hn).trans (execWith_cmpi cfg s n)

end Sys2Proof.Machine
end

section
/-! SUPPORT. Control transfer (spec/44_control_transfer.md R89 to R93): JUMP, JMPZ and the pair CMPI JMPZ, JSR and its
overflow, RTS and its underflow under each policy. -/

namespace Sys2Proof.Machine

/-! ### JUMP and JMPZ -/

/-- Settles O17: with its operand at p + 1 the step is JUMP's execution (`stepWith_of_opcode_operand`). -/
theorem jumpGoesToItsOperand : Obligations.JumpGoesToItsOperand := by
  intro t s
  refine ⟨exec_of_execWith (execWith_jump _ s t), fun cfg => ⟨rfl, fun hc hs hP ht => ?step⟩⟩
  case step => exact (stepWith_of_opcode_operand (i := .jump t) rfl hc hs hP ht).trans (execWith_jump cfg s t)

/-- R88, R90: JMPZ after CMPI jumps exactly on a mismatch, and leaves the flag that CMPI wrote. -/
theorem execWith_jmpz_after_cmpi (cfg : Config) (n t : Word) (s : State) :
    execWith cfg (.jmpz t) { s with P := s.P + 2, Z := decide (n = s.I) } =
      .next { s with P := if s.I ≠ n then t else s.P + 4, Z := decide (s.I = n) } := by
  have hpast : s.P + 2 + 2 = s.P + 4 := BitVec.add_assoc s.P 2 2
  simp only [execWith_jmpz, decide_eq_false_iff_not, hpast, eq_comm (a := n), ne_eq]

/-- Two steps of the loop over CMPI JMPZ. -/
theorem runLoop_cmpi_jmpz {cfg : Config} {s : State} {n t : Word} (hc : cfg.wf = true) (hs : s.status = .running)
    (h : WordsAt s.mem s.P [cfg.opcode .cmpi, n, cfg.opcode .jmpz, t]) :
    runLoop cfg 2 s = { s with P := if s.I ≠ n then t else s.P + 4, Z := decide (s.I = n) } := by
  obtain ⟨hcmpi, hjmpz⟩ := (wordsAt_append s.mem s.P (encode cfg (.cmpi n)) (encode cfg (.jmpz t))).mp h
  have hfirst := (stepWith_of_wordsAt hc hs hcmpi).trans (execWith_cmpi cfg s n)
  have hsecond := (stepWith_of_wordsAt (s := { s with P := s.P + 2, Z := decide (n = s.I) }) hc hs hjmpz).trans
    (execWith_jmpz_after_cmpi cfg n t s)
  rw [runLoop_succ_of_next hfirst, runLoop_succ_of_next hsecond, runLoop]

/-- Settles O18: with its operand at p + 1 the step is JMPZ's execution, and the pair CMPI JMPZ is `runLoop_cmpi_jmpz`. -/
theorem jmpzJumpsWhenFlagZeroIsFalse : Obligations.JmpzJumpsWhenFlagZeroIsFalse := by
  intro t s
  refine ⟨exec_of_execWith (execWith_jmpz _ s t), fun cfg =>
    ⟨rfl, fun hc hs hP ht => ?step, fun n hc hs => runLoop_cmpi_jmpz hc hs⟩⟩
  case step => exact (stepWith_of_opcode_operand (i := .jmpz t) rfl hc hs hP ht).trans (execWith_jmpz cfg s t)

/-! ### JSR -/

/-- R21: the default machine's stack is unbounded, so its JSR never overflows. -/
theorem exec_jsr (t : Word) (s : State) :
    exec (.jsr t) s = .next { s with P := t, stack := s.stack ++ [s.P + 2] } :=
  jsrWith_room (cfg := Config.default) t nofun

/-- R92: RTS takes the most recently pushed Word off the stack and into P. -/
theorem exec_rts_append {s : State} {older : List Word} {v : Word} (h : s.stack = older ++ [v]) :
    exec .rts s = .next { s with P := v, stack := older } :=
  rtsWith_append (cfg := Config.default) h

/-- Settles O19: the step is JSR's execution, with room (`jsrWith_room`) or on a full stack (`jsrWith_full`), and RTS pops
what JSR pushed. -/
theorem jsrPushesReturnAddressOrOverflows : Obligations.JsrPushesReturnAddressOrOverflows := by
  intro t s
  refine ⟨exec_jsr t s, ⟨_, exec_jsr t s, exec_rts_append rfl⟩, fun cfg => ⟨rfl, fun hc hs hP ht => ?step⟩⟩
  case step =>
    have hstep : stepWith cfg s = jsrWith cfg t s := stepWith_of_opcode_operand (i := .jsr t) rfl hc hs hP ht
    refine ⟨fun hroom => hstep.trans (jsrWith_room t hroom), fun hfull => ?overflow⟩
    case overflow => rw [hstep, jsrWith_full t hfull, State.raiseFault_eq, hP]

/-! ### RTS -/

/-- R92: a Running core whose Word at P is RTS's opcode executes RTS. -/
theorem stepWith_rts {cfg : Config} {s : State} (hc : cfg.wf = true) (hs : s.status = .running)
    (hP : s.mem.read s.P = cfg.opcode .rts) : stepWith cfg s = rtsWith cfg s :=
  stepWith_of_opcode (i := .rts) rfl hc hs hP

/-- R93: the step of RTS on an empty stack is the underflow rule. -/
theorem stepWith_rts_empty {cfg : Config} {s : State} (hc : cfg.wf = true) (hs : s.status = .running)
    (hP : s.mem.read s.P = cfg.opcode .rts) (hempty : s.stack = []) :
    stepWith cfg s = .next (s.rtsUnderflow cfg.rtsUnderflowPolicy) :=
  (stepWith_rts hc hs hP).trans (rtsWith_empty hempty)

/-- R93, R102: policy `fault` records p and the Word at p, and leaves P past that Word. -/
theorem State.rtsUnderflow_fault (s : State) :
    s.rtsUnderflow .fault = { s with P := s.P + 1, status := .faulted .stackUnderflow s.P (s.mem.read s.P) } :=
  s.raiseFault_eq .stackUnderflow

/-- R93: policy `continue_keep_p` steps over RTS and emits the report. -/
theorem State.rtsUnderflow_continueKeepP (s : State) :
    s.rtsUnderflow .continueKeepP =
      { s with P := s.P + 1, out := s.out ++ Config.underflowReport s.draws, draws := s.draws + 1 } := rfl

/-- R93: policy `continue_zero_p` goes to address 0 and emits the report. -/
theorem State.rtsUnderflow_continueZeroP (s : State) :
    s.rtsUnderflow .continueZeroP =
      { s with P := 0, out := s.out ++ Config.underflowReport s.draws, draws := s.draws + 1 } := rfl

/-- R93: the step of RTS on an empty stack under policy `fault`. -/
theorem stepWith_rts_empty_fault {cfg : Config} {s : State} (hc : cfg.wf = true) (hs : s.status = .running)
    (hP : s.mem.read s.P = cfg.opcode .rts) (hempty : s.stack = []) (hp : cfg.rtsUnderflowPolicy = .fault) :
    stepWith cfg s =
      .next { s with P := s.P + 1, status := .faulted .stackUnderflow s.P (cfg.opcode .rts) } := by
  rw [stepWith_rts_empty hc hs hP hempty, hp, State.rtsUnderflow_fault, hP]

/-- Settles O20: the step is RTS's execution, which pops a nonempty stack (`rtsWith_append`) and faults on an empty one. -/
theorem rtsPopsIntoP : Obligations.RtsPopsIntoP := by
  intro s
  refine ⟨fun _ _ => exec_rts_append, fun cfg =>
    ⟨encode_of_no_operands cfg rfl, fun hc hs hP => ⟨fun older v h => ?pop, stepWith_rts_empty_fault hc hs hP⟩⟩⟩
  case pop => exact (stepWith_rts hc hs hP).trans (rtsWith_append h)

/-- Settles O21: RTS on an empty stack is `State.rtsUnderflow`, read off for each policy; the default machine's policy is
`fault`, and the bytes appended under a continuing policy are the report drawn. -/
theorem rtsUnderflowFollowsPolicy : Obligations.RtsUnderflowFollowsPolicy := by
  intro s hempty
  refine ⟨⟨s.mem.read s.P, ?exec, id⟩, fun cfg hc hs hP => ?step⟩
  case exec =>
    exact (rtsWith_empty (cfg := Config.default) hempty).trans (congrArg Host.Outcome.next s.rtsUnderflow_fault)
  case step =>
    have hstep := stepWith_rts_empty hc hs hP hempty
    cases hp : cfg.rtsUnderflowPolicy with
    | fault => exact stepWith_rts_empty_fault hc hs hP hempty hp
    | continueKeepP => exact ⟨_, _, by rw [hstep, hp, State.rtsUnderflow_continueKeepP]⟩
    | continueZeroP => exact ⟨_, _, by rw [hstep, hp, State.rtsUnderflow_continueZeroP]⟩

end Sys2Proof.Machine
end

section
/-! SUPPORT. Device I/O (spec/45_device_io.md R95): BIOS. -/

namespace Sys2Proof.Machine

/-- R95: BIOS's next state, with write-to-stdout as the equality of both code Words and the byte as a number. -/
theorem execWith_bios_ofNat (cfg : Config) (d g : Word) (s : State) :
    execWith cfg (.bios d g) s = .next { s with
      P := s.P + 3, out := if d = cfg.ioCode .ioWrite ∧ g = cfg.ioCode .targetStdout
        then s.out ++ [BitVec.ofNat 8 s.A.toNat] else s.out } := by
  simp only [execWith_bios, isWriteToStdout_iff, State.lowByteA_eq]

/-- Format F2: an instruction with two operands is executed when its opcode Word and those operands stand from P on. -/
theorem stepWith_of_opcode_two_operands {cfg : Config} {s : State} {i : Instr} {d g : Word} (hi : i.operands = [d, g])
    (hc : cfg.wf = true) (hs : s.status = .running) (hop : s.mem.read s.P = cfg.opcode i.mnemonic)
    (hd : s.mem.read (s.P + 1) = d) (hg : s.mem.read (s.P + 2) = g) : stepWith cfg s = execWith cfg i s := by
  have hsecond : s.P + 1 + 1 = s.P + 2 := BitVec.add_assoc s.P 1 1
  refine stepWith_of_wordsAt hc hs ?_
  rw [encode, hi]
  exact ⟨hop, hd, hsecond ▸ hg, trivial⟩

/-- Settles O22: with its operands at p + 1 and p + 2 the step is BIOS's execution (`stepWith_of_opcode_two_operands`),
which emits the low byte of A exactly for write-to-stdout (`execWith_bios_ofNat`). -/
theorem biosWritesLowByteOfA : Obligations.BiosWritesLowByteOfA := by
  intro d g s
  refine ⟨exec_of_execWith (execWith_bios_ofNat _ d g s), fun cfg => ⟨rfl, fun hc hs hP hd hg => ?step⟩⟩
  case step =>
    exact (stepWith_of_opcode_two_operands (i := .bios d g) rfl hc hs hP hd hg).trans (execWith_bios_ofNat cfg d g s)

end Sys2Proof.Machine
end

section
/-! SUPPORT. The faults (spec/60_exceptions.md R100 to R103): what a step that faults does, when it faults, and the Faulted
status afterwards. -/

namespace Sys2Proof.Machine

/-! ### What the step did that ended Faulted -/

/-- R93: from a Running core, an underflow ends Faulted only under policy `fault`, and then by raising StackUnderflow. -/
theorem State.rtsUnderflow_of_faulted {s : State} {policy : RtsUnderflowPolicy} {cause : FaultCause} {addr word : Word}
    (hs : s.status = .running) (h : (s.rtsUnderflow policy).status = .faulted cause addr word) :
    policy = .fault ∧ cause = .stackUnderflow := by
  cases policy with
  | fault => cases h; exact ⟨rfl, rfl⟩
  | continueKeepP | continueZeroP => exact absurd (hs.symm.trans h) nofun

/-- R76: from a Running core, an unknown opcode ends Faulted only under policy `fault`, and then by raising UnknownOpcode. -/
theorem State.unknownOpcode_of_faulted {s : State} {policy : UnknownOpcodePolicy} {cause : FaultCause} {addr word : Word}
    (hs : s.status = .running) (h : (s.unknownOpcode policy).status = .faulted cause addr word) :
    policy = .fault ∧ cause = .unknownOpcode := by
  cases policy with
  | fault => cases h; exact ⟨rfl, rfl⟩
  | noop => exact absurd (hs.symm.trans h) nofun

/-- R25: only HALT, JSR and RTS can change the status. -/
theorem execWith_keeps_status {cfg : Config} {i : Instr} {s t : State} (hi : i.mnemonic ∉ [.halt, .jsr, .rts])
    (h : execWith cfg i s = .next t) : t.status = s.status := by
  cases i with
  | halt | jsr | rts => simp at hi
  | noop | inca | deca | seta | setatom | seti | inci | cmpi | jump | jmpz | bios =>
    simp only [execWith_noop, execWith_inca, execWith_deca, execWith_seta, execWith_setatom, execWith_seti,
      execWith_inci, execWith_cmpi, execWith_jump, execWith_jmpz, execWith_bios] at h
    cases h
    rfl

/-- R100: an instruction that ends a Running core Faulted is a JSR on a full stack or an RTS on an empty one, and all it
does is raise that fault. -/
theorem execWith_raises {cfg : Config} {i : Instr} {s t : State} {cause : FaultCause} {addr word : Word}
    (hs : s.status = .running) (h : execWith cfg i s = .next t) (ht : t.status = .faulted cause addr word) :
    t = s.raiseFault cause ∧ causeHolds cfg s (cfg.opcode i.mnemonic) cause := by
  cases i with
  | halt => cases h; cases ht
  | jsr target =>
    rw [execWith_jsr] at h
    rcases jsrWith_cases cfg s target with ⟨hfull, hj⟩ | ⟨-, hj⟩
    · rw [hj] at h
      cases h
      cases ht
      exact ⟨rfl, rfl, hfull⟩
    · rw [hj] at h
      cases h
      exact absurd (hs.symm.trans ht) nofun
  | rts =>
    rw [execWith_rts] at h
    rcases rtsWith_cases cfg s with ⟨hempty, hr⟩ | ⟨older, v, -, hr⟩
    · rw [hr] at h
      cases h
      obtain ⟨hp, rfl⟩ := State.rtsUnderflow_of_faulted hs ht
      exact ⟨by rw [hp]; rfl, hp, rfl, hempty⟩
    · rw [hr] at h
      cases h
      exact absurd (hs.symm.trans ht) nofun
  | noop | inca | deca | seta | setatom | seti | inci | cmpi | jump | jmpz | bios =>
    exact absurd ((hs.symm.trans (execWith_keeps_status (by simp) h).symm).trans ht) nofun

/-- R100, R102: a step that ends Faulted did nothing but raise that fault, whose condition held. -/
theorem stepWith_raises {cfg : Config} {s t : State} {cause : FaultCause} {addr word : Word}
    (h : stepWith cfg s = .next t) (ht : t.status = .faulted cause addr word) :
    t = s.raiseFault cause ∧ causeHolds cfg s (s.mem.read s.P) cause := by
  obtain ⟨hs, ⟨i, hw, -, hexec⟩ | ⟨hu, rfl⟩⟩ := stepWith_cases h
  · have hop : s.mem.read s.P = cfg.opcode i.mnemonic := hw.1
    rw [hop]
    exact execWith_raises hs hexec ht
  · obtain ⟨hp, rfl⟩ := State.unknownOpcode_of_faulted hs ht
    exact ⟨by rw [hp]; rfl, hp, hu⟩

/-! ### The conditions are sufficient -/

/-- R100: where the condition of a cause holds, the step of a Running core raises that fault. -/
theorem stepWith_of_causeHolds {cfg : Config} {s : State} {cause : FaultCause} (hc : cfg.wf = true)
    (hs : s.status = .running) (h : causeHolds cfg s (s.mem.read s.P) cause) :
    stepWith cfg s = .next (s.raiseFault cause) := by
  cases cause with
  | unknownOpcode =>
    obtain ⟨hp, hu⟩ := h
    rw [stepWith_unknown hs hu, hp]
    rfl
  | stackUnderflow =>
    obtain ⟨hp, hop, hempty⟩ := h
    rw [stepWith_rts_empty hc hs hop hempty, hp]
    rfl
  | stackOverflow =>
    obtain ⟨hop, hfull⟩ := h
    exact stepWith_overflow hs ((Config.mnemonicOf_eq_some hc).mpr hop.symm) hfull

/-- R100: exactly when a step of a Running core ends Faulted, and with which record. -/
theorem stepWith_faults_iff {cfg : Config} {s : State} {cause : FaultCause} {addr word : Word} (hc : cfg.wf = true)
    (hs : s.status = .running) :
    (∃ t, stepWith cfg s = .next t ∧ t.status = .faulted cause addr word) ↔
      addr = s.P ∧ word = s.mem.read s.P ∧ causeHolds cfg s word cause := by
  constructor
  · rintro ⟨t, hstep, ht⟩
    obtain ⟨rfl, rfl⟩ := stepWith_faulted hstep ht
    exact ⟨rfl, rfl, (stepWith_raises hstep ht).2⟩
  · rintro ⟨rfl, rfl, hcause⟩
    exact ⟨_, stepWith_of_causeHolds hc hs hcause, s.raiseFault_status cause⟩

/-! ### The obligations -/

/-- Settles O36: the step raised the fault and did nothing else (`stepWith_raises`), and no step is enabled afterwards. -/
theorem faultEntryIsPrecise : Obligations.FaultEntryIsPrecise := by
  intro cfg s t cause addr word hstep ht
  exact ⟨(stepWith_raises hstep ht).1.trans (s.raiseFault_eq cause), runLoop_of_not_running (by simp [ht])⟩

/-- Settles O37: `stepWith_faults_iff`, with `causeHolds` read off for each cause. -/
theorem faultCausesAndConditions : Obligations.FaultCausesAndConditions := by
  refine ⟨rfl, rfl, rfl, fun cfg s cause addr word hc hs => (stepWith_faults_iff hc hs).trans ?_⟩
  refine and_congr_right' (and_congr_right' ?_)
  cases cause with
  | unknownOpcode => exact and_comm
  | stackUnderflow => exact and_rotate
  | stackOverflow => exact Iff.rfl

/-- Settles O39: a Faulted core is not Running, so it takes no step and the loop stays; each of the host's operations has
its own rule for a Faulted status. -/
theorem faultedIsStickyUntilReset : Obligations.FaultedIsStickyUntilReset := by
  intro cfg s cause addr word hs
  have hnot : s.status ≠ .running := by simp [hs]
  refine ⟨fun t => ?step, runLoop_of_not_running hnot, State.hostRun_faulted hs, fun ws t => State.hostLoad_status, rfl⟩
  case step =>
    rw [stepWith_not_running hnot]
    exact nofun

end Sys2Proof.Machine
end

section
/-! SUPPORT. Reset and Run (spec/70_reset_and_hazards.md R117, R119): the reset value of every item of state, and what the
host's Run does in each status. -/

namespace Sys2Proof.Machine

/-! ### Reset -/

/-- R116, R117: the reset state and the host's reset of any state differ from each other in the draw counter at most. -/
theorem State.eq_reset_with_draws {s r : State} (h : r ∈ [State.reset, s.hostReset]) :
    ∃ n, r = { State.reset with draws := n } := by
  rcases List.mem_pair.mp h with rfl | rfl
  · exact ⟨State.reset.draws, rfl⟩
  · exact ⟨s.draws, rfl⟩

/-- Settles O42: whatever the draw counter is (`State.eq_reset_with_draws`), every item of R117's table has its reset value;
memory reads 0 because it is empty. -/
theorem resetValuesOfAllState : Obligations.ResetValuesOfAllState := by
  intro s r hr
  obtain ⟨n, rfl⟩ := State.eq_reset_with_draws hr
  exact ⟨rfl, rfl, rfl, rfl, rfl, Memory.read_empty, rfl, rfl, rfl⟩

/-! ### Run -/

/-- R119: Run makes a Ready core Running at its P. -/
theorem State.hostRun_ready {s : State} (h : s.status = .ready) : s.hostRun = some { s with status := .running } := by
  simp only [State.hostRun, h, State.setStatus]

/-- R119: Run cannot be issued while the core is Running. -/
theorem State.hostRun_running {s : State} (h : s.status = .running) : s.hostRun = none := by
  simp only [State.hostRun, h]

/-- Settles O43: Run has one rule for each of the four statuses. -/
theorem runStartsReadyOrHalted : Obligations.RunStartsReadyOrHalted := by
  intro s
  refine ⟨?starts, fun _ _ _ => State.hostRun_faulted, State.hostRun_running⟩
  case starts =>
    rintro (hready | hhalted)
    · exact State.hostRun_ready hready
    · exact State.hostRun_halted hhalted

end Sys2Proof.Machine
end

section
/-! SUPPORT. The decoder and the encoder (spec/30_encoding.md R47 to R53): exactly when the decoder answers an instruction,
exactly when it answers an unknown opcode, and an instruction's number of Words. -/

namespace Sys2Proof

/-- R47, R49: an instruction's operand Words, after its mnemonic, give it back. -/
theorem Instr.ofOperands_operands_append (i : Instr) (rest : List Word) :
    Instr.ofOperands i.mnemonic (i.operands ++ rest) = some (i, rest) := by
  cases i <;> rfl

/-- R51, R53: the decoder answers UnknownOpcode exactly on an opcode Word outside the image of OPCODE. -/
theorem decode_cons_eq_unknownOpcode {cfg : Config} {w : Word} {ws : List Word} :
    decode cfg (w :: ws) = .error (.unknownOpcode w) ↔ cfg.mnemonicOf w = none := by
  cases hm : cfg.mnemonicOf w with
  | none => simp [decode, hm]
  | some m => cases ho : Instr.ofOperands m ws <;> simp [decode, hm, ho]

/-- R48, R49, R51: the decoder answers an instruction exactly when the first Word names its mnemonic and its operands
follow. -/
theorem decode_cons_eq_ok {cfg : Config} {w : Word} {ws rest : List Word} {i : Instr} :
    decode cfg (w :: ws) = .ok (i, rest) ↔ cfg.mnemonicOf w = some i.mnemonic ∧ ws = i.operands ++ rest := by
  constructor
  · intro h
    cases hm : cfg.mnemonicOf w with
    | none => simp [decode, hm] at h
    | some m =>
      cases ho : Instr.ofOperands m ws with
      | none => simp [decode, hm, ho] at h
      | some r =>
        simp only [decode, hm, ho, Except.ok.injEq] at h
        obtain ⟨rfl, hws⟩ := Instr.ofOperands_eq_some (h ▸ ho)
        exact ⟨rfl, hws⟩
  · rintro ⟨hm, rfl⟩
    simp only [decode, hm, Instr.ofOperands_operands_append]

/-- R47, R48: an instruction is its opcode Word and as many Words as its mnemonic's operand count. -/
theorem length_encode (cfg : Config) (i : Instr) : (encode cfg i).length = 1 + i.mnemonic.operandCount := by
  rw [encode, List.length_cons, Instr.length_operands, Nat.add_comm]

/-- R52: an OPCODE Word tells the number of Words of its mnemonic. -/
theorem Config.lengthOf_opcode {cfg : Config} (hc : cfg.wf = true) (m : Mnemonic) :
    cfg.lengthOf (cfg.opcode m) = 1 + m.operandCount := by
  simp only [Config.lengthOf, Config.mnemonicOf_opcode hc]

/-- Settles O1: OPCODE(m) is taken for m, and the operands follow it. -/
theorem decodeOfEncodeIsTheInstruction : Obligations.DecodeOfEncodeIsTheInstruction :=
  fun _ i _ hc => decode_cons_eq_ok.mpr ⟨Config.mnemonicOf_opcode hc i.mnemonic, rfl⟩

/-- Settles O2: the first Word the decoder takes for m is OPCODE(m), and the Words after it are the operands and the rest. -/
theorem encodeOfDecodeIsTheWords : Obligations.EncodeOfDecodeIsTheWords := by
  intro cfg ws rest i h
  cases ws with
  | nil => cases h
  | cons w ws =>
    obtain ⟨hm, rfl⟩ := decode_cons_eq_ok.mp h
    rw [encode, Config.opcode_of_mnemonicOf hm, List.cons_append]

/-- Settles O3: the decoder's error is that no mnemonic is found, and none is found exactly outside the image of OPCODE. -/
theorem decoderRejectsExactlyUnknownOpcodes : Obligations.DecoderRejectsExactlyUnknownOpcodes :=
  fun _ _ _ => decode_cons_eq_unknownOpcode.trans Config.mnemonicOf_eq_none

/-- Settles O4: both lengths are 1 plus the operand count, whose column the statement writes out. -/
theorem lengthKnownFromOpcode : Obligations.LengthKnownFromOpcode := by
  intro cfg i hc
  refine ⟨?fromOpcode, ?column⟩
  case fromOpcode => rw [Config.lengthOf_opcode hc, length_encode]
  case column =>
    rw [length_encode]
    cases i <;> rfl

/-- Settles O5: ten closed Words, decoded. -/
theorem defaultTableWordsDecode : Obligations.DefaultTableWordsDecode :=
  ⟨rfl, rfl, rfl, rfl, rfl, rfl, rfl, rfl, rfl, rfl⟩

end Sys2Proof
end

section
/-! SUPPORT. Words placed in memory (spec/20_memory.md R29, R32, R36): consecutive Words stand where they were written, and a
canonical memory is determined by its reads. -/

namespace Sys2Proof.Machine

/-! ### Consecutive Words -/

/-- Words stand from `p` on when each is read at its distance from `p`. -/
theorem wordsAt_of_read {m : Memory} {ws : List Word} {p : Word}
    (h : ∀ (k : Nat) (hk : k < ws.length), m.read (p + BitVec.ofNat 64 k) = ws[k]) : WordsAt m p ws := by
  induction ws generalizing p with
  | nil => trivial
  | cons w ws ih =>
    refine ⟨by simpa using h 0 (Nat.succ_pos _), ih fun k hk => ?_⟩
    have hshift : p + 1 + BitVec.ofNat 64 k = p + BitVec.ofNat 64 (k + 1) := by
      rw [BitVec.add_assoc, Nat.add_comm k, BitVec.ofNat_add]
      rfl
    rw [hshift]
    exact h (k + 1) (Nat.succ_lt_succ hk)

/-- R36: Words written from an address on stand there. -/
theorem Memory.wordsAt_writeWords {m : Memory} {ws : List Word} (hm : m.wf = true) (hl : ws.length ≤ 2 ^ 64) (p : Word) :
    WordsAt (m.writeWords p ws) p ws := by
  refine wordsAt_of_read fun k hk => ?_
  have hdist : (p + BitVec.ofNat 64 k - p).toNat = k := by
    rw [add_sub_cancel_left, BitVec.toNat_ofNat, Nat.mod_eq_of_lt (by omega)]
  rw [Memory.read_writeWords ws m p _ hm hl, hdist, List.getElem?_eq_getElem hk, Option.getD_some]

/-! ### The canonical form -/

theorem cellsWf_cons {k : Nat} {v : Word} {cells : List (Nat × Word)} :
    cellsWf ((k, v) :: cells) = true ↔
      k < 2 ^ 64 ∧ v ≠ Memory.unlisted ∧ (∀ c ∈ cells, k < c.1) ∧ cellsWf cells = true := by
  simp only [cellsWf, Bool.and_eq_true, List.all_eq_true, decide_eq_true_eq, and_assoc]

/-- R32: an address below every key is unlisted. -/
theorem lookupCell_of_lt {cells : List (Nat × Word)} {a : Nat} (h : ∀ c ∈ cells, a < c.1) :
    lookupCell cells a = Memory.unlisted := by
  induction cells with
  | nil => rfl
  | cons c cells ih =>
    obtain ⟨hc, hrest⟩ := List.forall_mem_cons.mp h
    rw [lookupCell, if_neg (by omega), ih hrest]

theorem lookupCell_cons_self (k : Nat) (v : Word) (cells : List (Nat × Word)) : lookupCell ((k, v) :: cells) k = v :=
  if_pos rfl

/-- A canonical list that reads a Word other than the unlisted one at `k` has a first key, which is at most `k`. -/
theorem exists_cons_of_lookupCell_ne {cells : List (Nat × Word)} {k : Nat} (hwf : cellsWf cells = true)
    (h : lookupCell cells k ≠ Memory.unlisted) : ∃ k' v rest, cells = (k', v) :: rest ∧ k' ≤ k := by
  cases cells with
  | nil => exact absurd rfl h
  | cons c rest =>
    obtain ⟨k', v⟩ := c
    obtain ⟨-, -, hkeys, -⟩ := cellsWf_cons.mp hwf
    refine ⟨k', v, rest, rfl, Nat.le_of_not_lt fun hlt => h (lookupCell_of_lt (List.forall_mem_cons.mpr ⟨hlt, ?_⟩))⟩
    exact fun c hc => Nat.lt_trans hlt (hkeys c hc)

/-- R32: canonical lists that read alike at every address are equal: each first key is listed in the other list, so the first
keys are equal, and the lists after them read alike. -/
theorem cells_eq_of_lookupCell_eq {cells cells' : List (Nat × Word)} (hwf : cellsWf cells = true)
    (hwf' : cellsWf cells' = true) (h : ∀ a < 2 ^ 64, lookupCell cells a = lookupCell cells' a) : cells = cells' := by
  induction cells generalizing cells' with
  | nil =>
    cases cells' with
    | nil => rfl
    | cons c rest =>
      obtain ⟨k, v⟩ := c
      obtain ⟨hk, hv, -, -⟩ := cellsWf_cons.mp hwf'
      exact absurd ((h k hk).trans (lookupCell_cons_self k v rest)).symm hv
  | cons c rest ih =>
    obtain ⟨k, v⟩ := c
    obtain ⟨hk, hv, hkeys, hrest⟩ := cellsWf_cons.mp hwf
    have hread := (lookupCell_cons_self k v rest).symm.trans (h k hk)
    obtain ⟨k', v', rest', rfl, hle⟩ := exists_cons_of_lookupCell_ne hwf' (hread ▸ hv)
    obtain ⟨hk', hv', hkeys', hrest'⟩ := cellsWf_cons.mp hwf'
    have hread' := (h k' hk').trans (lookupCell_cons_self k' v' rest')
    obtain ⟨_, _, _, hcons, hge⟩ := exists_cons_of_lookupCell_ne hwf (hread'.symm ▸ hv')
    cases hcons
    obtain rfl : k = k' := Nat.le_antisymm hge hle
    rw [lookupCell_cons_self] at hread
    subst hread
    refine congrArg _ (ih hrest hrest' fun a ha => ?_)
    by_cases hak : k = a
    · rw [lookupCell_of_lt (hak ▸ hkeys), lookupCell_of_lt (hak ▸ hkeys')]
    · simpa only [lookupCell, if_neg hak] using h a ha

theorem Memory.eq_of_read_eq {m m' : Memory} (hm : m.wf = true) (hm' : m'.wf = true) (h : ∀ a, m.read a = m'.read a) :
    m = m' := by
  obtain ⟨cells⟩ := m
  obtain ⟨cells'⟩ := m'
  refine congrArg Memory.mk (cells_eq_of_lookupCell_eq hm hm' fun a ha => ?_)
  simpa only [Memory.read, BitVec.toNat_ofNat, Nat.mod_eq_of_lt ha] using h (BitVec.ofNat 64 a)

/-- Settles O45: canonical memories are determined by their reads, and a load is a sequence of writes, each of which keeps the
canonical form. -/
theorem memoryIsWhatItReads : Obligations.MemoryIsWhatItReads := by
  refine ⟨fun m m' => Memory.eq_of_read_eq, fun s t ws hm h => ?load⟩
  case load =>
    obtain ⟨-, -, rfl⟩ := State.hostLoad_eq_ok.mp h
    exact Memory.wf_writeWords ws s.mem 0 hm

end Sys2Proof.Machine
end

section
/-! SUPPORT. The step (spec/40_fetch_execute.md R72 to R75): which instruction it runs, that it always has a next state, and
that it is enabled only when Running. -/

namespace Sys2Proof.Machine

/-- R72 to R75 for the default machine. -/
theorem step_of_wordsAt {s : State} {i : Instr} (hs : s.status = .running)
    (h : WordsAt s.mem s.P (encode Config.default i)) : step s = exec i s := by
  rw [step_eq_stepWith, stepWith_of_wordsAt Config.wf_default hs h, execWith_default]

/-- Settles O6, by `step_of_wordsAt` for the default machine and `stepWith_of_wordsAt` for every machine. -/
theorem stepExecutesTheDecodedInstruction : Obligations.StepExecutesTheDecodedInstruction :=
  fun _ _ hs => ⟨step_of_wordsAt hs, fun _ hc => stepWith_of_wordsAt hc hs⟩

/-- The Words of a table row begin with the encoding of the instruction they decode to. -/
theorem tableWords_of_decodeTableWord {nbits w : Nat} {i : Instr} (h : decodeTableWord nbits w = some i) :
    ∃ rest, tableWords nbits w = encode Config.default i ++ rest := by
  unfold decodeTableWord at h
  split at h
  · rename_i j rest hdecode
    cases h
    exact ⟨rest, encodeOfDecodeIsTheWords _ _ _ _ hdecode⟩
  · cases h

/-- Settles O7: the row's Words stand from P on after they were written there, and they begin with the instruction's. -/
theorem placedTableWordRunsNext : Obligations.PlacedTableWordRunsNext := by
  intro s nbits w i hm hw
  obtain ⟨rest, hrest⟩ := tableWords_of_decodeTableWord hw
  have hlength : (tableWords nbits w).length ≤ 2 ^ 64 := by simp [tableWords]
  have hplaced : WordsAt (s.withFetchWord nbits w).mem s.P (encode Config.default i ++ rest) :=
    hrest ▸ Memory.wordsAt_writeWords hm hlength s.P
  exact step_of_wordsAt rfl ((wordsAt_append _ _ _ _).mp hplaced).1

theorem execWith_completes (cfg : Config) (i : Instr) (s : State) : ∃ t, execWith cfg i s = .next t := by
  cases i with
  | jsr target => exact (jsrWith_cases cfg s target).elim (fun h => ⟨_, h.2⟩) (fun h => ⟨_, h.2⟩)
  | rts => exact (rtsWith_cases cfg s).elim (fun h => ⟨_, h.2⟩) (fun ⟨_, _, _, h⟩ => ⟨_, h⟩)
  | halt | noop | inca | deca | seta | setatom | seti | inci | cmpi | jump | jmpz | bios => exact ⟨_, rfl⟩

/-- Settles O24: every meaning answers a next state, and the step of a Running core is a meaning or the unknown-opcode rule. -/
theorem everyInstructionCompletes : Obligations.EveryInstructionCompletes := by
  refine ⟨fun i s => ?exec, execWith_completes, fun cfg s hs => ?step⟩
  case exec =>
    rw [← execWith_default]
    exact execWith_completes _ i s
  case step =>
    rw [stepWith, stepBy_running hs]
    rcases s.fetchInstr_cases cfg with ⟨i, hf, -⟩ | ⟨hf, -⟩
    · rw [hf]
      exact execWith_completes cfg i s
    · rw [hf]
      exact ⟨_, rfl⟩

/-- Settles O41, by `stepWith_not_running` and `runLoop_of_not_running`. -/
theorem noStepUnlessRunning : Obligations.NoStepUnlessRunning :=
  fun _ s hs => ⟨(step_eq_stepWith s).trans (stepWith_not_running hs), stepWith_not_running hs,
    runLoop_of_not_running hs⟩

end Sys2Proof.Machine
end

section
/-! SUPPORT. FlagZero, the stack, P and the output sink (spec/10_state.md R17, R20, R21, R30): which instructions touch each of
them, and how. -/

namespace Sys2Proof.Machine

/-! ### FlagZero (R20) -/

/-- "no other instruction does": FlagZero is left by all but CMPI. -/
theorem execWith_keeps_Z {cfg : Config} {i : Instr} {s t : State} (hi : i.mnemonic ≠ .cmpi)
    (h : execWith cfg i s = .next t) : t.Z = s.Z := by
  cases i with
  | cmpi => exact absurd rfl hi
  | inca | deca | seta | setatom | seti | inci =>
    simp only [execWith_inca, execWith_deca, execWith_seta, execWith_setatom, execWith_seti, execWith_inci] at h
    cases h
    rfl
  | halt | noop | jump | jmpz | jsr | rts | bios => exact (execWith_regs (by simp) h).2.2

theorem execWith_carries_Z {cfg : Config} {i : Instr} (hi : i.mnemonic ∉ [.cmpi, .jmpz]) (s : State) (z : Bool) :
    execWith cfg i { s with Z := z } = mapNext (fun t => { t with Z := z }) (execWith cfg i s) := by
  cases i with
  | cmpi | jmpz => simp at hi
  | inca | deca | seta | setatom | seti | inci =>
    simp only [execWith_inca, execWith_deca, execWith_seta, execWith_setatom, execWith_seti, execWith_inci, mapNext_next]
  | bios d g => simp only [execWith_bios, mapNext_next]; rfl
  | halt | noop | jump | jsr | rts => exact execWith_mapRegs (by simp) s id id fun _ => z

/-- Settles O28: CMPI's equation, the frame `execWith_keeps_Z`, and `execWith_carries_Z`. -/
theorem flagZeroWrittenByCmpiReadByJmpz : Obligations.FlagZeroWrittenByCmpiReadByJmpz := by
  refine ⟨rfl, fun cfg i s z => ⟨by simp, fun hi t => execWith_keeps_Z hi, ?overwrites, fun hi =>
    execWith_carries_Z hi s z⟩⟩
  case overwrites =>
    intro hi
    cases i with
    | cmpi n => simp only [execWith_cmpi]
    | _ => simp at hi

/-! ### The stack (R21, R23) -/

/-- All instructions but JSR and RTS carry the stack along without effect. -/
theorem execWith_carries_stack {cfg : Config} {i : Instr} (hi : i.mnemonic ∉ [.jsr, .rts]) (s : State) (st : List Word) :
    execWith cfg i { s with stack := st } = mapNext (fun t => { t with stack := st }) (execWith cfg i s) := by
  cases i with
  | jsr | rts => simp at hi
  | bios d g => simp only [execWith_bios, mapNext_next]; rfl
  | halt | noop | inca | deca | seta | setatom | seti | inci | cmpi | jump | jmpz =>
    simp only [execWith_halt, execWith_noop, execWith_inca, execWith_deca, execWith_seta, execWith_setatom,
      execWith_seti, execWith_inci, execWith_cmpi, execWith_jump, execWith_jmpz, mapNext_next]

/-- An instruction that carries every stack along carries its own. -/
theorem execWith_keeps_stack {cfg : Config} {i : Instr} {s t : State} (hi : i.mnemonic ∉ [.jsr, .rts])
    (h : execWith cfg i s = .next t) : t.stack = s.stack := by
  have hcarried := execWith_carries_stack (cfg := cfg) hi s s.stack
  rw [h, mapNext_next] at hcarried
  injection hcarried with ht
  exact (congrArg State.stack ht :)

/-- R93: no underflow touches the stack. -/
theorem State.rtsUnderflow_stack (s : State) (policy : RtsUnderflowPolicy) : (s.rtsUnderflow policy).stack = s.stack := by
  cases policy <;> rfl

/-- R76: no unknown opcode touches the stack. -/
theorem State.unknownOpcode_stack (s : State) (policy : UnknownOpcodePolicy) :
    (s.unknownOpcode policy).stack = s.stack := by
  cases policy <;> rfl

/-- R91: JSR pushes p + 2 with room, and leaves a full stack. -/
theorem jsrWith_stack {cfg : Config} {target : Word} {s t : State} (h : jsrWith cfg target s = .next t) :
    (cfg.stackDepth ≠ some s.stack.length ∧ t.stack = s.stack ++ [s.P + 2]) ∨
    (cfg.stackDepth = some s.stack.length ∧ t.stack = s.stack) := by
  rcases jsrWith_cases cfg s target with ⟨hfull, hj⟩ | ⟨hroom, hj⟩
  · rw [hj] at h
    cases h
    exact .inr ⟨hfull, rfl⟩
  · rw [hj] at h
    cases h
    exact .inl ⟨hroom, rfl⟩

/-- R92, R93: RTS takes the last entry into P, and leaves an empty stack. -/
theorem rtsWith_stack {cfg : Config} {s t : State} (h : rtsWith cfg s = .next t) :
    (∃ v, s.stack = t.stack ++ [v] ∧ t.P = v) ∨ (s.stack = [] ∧ t.stack = []) := by
  rcases rtsWith_cases cfg s with ⟨hempty, hr⟩ | ⟨older, v, hs, hr⟩
  · rw [hr] at h
    cases h
    exact .inr ⟨hempty, (s.rtsUnderflow_stack _).trans hempty⟩
  · rw [hr] at h
    cases h
    exact .inl ⟨v, hs, rfl⟩

/-- Settles O29: the instructions that carry the stack along, and the two that touch it. -/
theorem stackTouchedOnlyByJsrAndRts : Obligations.StackTouchedOnlyByJsrAndRts := by
  intro cfg i s t h
  refine ⟨fun hi => ⟨execWith_keeps_stack hi h, fun st => ?carries⟩, fun hi => ?jsr, fun hi => ?rts⟩
  case carries => rw [execWith_carries_stack hi, h, mapNext_next]
  case jsr =>
    cases i with
    | jsr target => exact (jsrWith_stack h).imp And.right And.symm
    | _ => simp at hi
  case rts =>
    cases i with
    | rts => exact rtsWith_stack h
    | _ => simp at hi

/-- Everything a step can do to the stack: nothing, a push of p + 2 by a JSR with room, or a pop. -/
theorem stepWith_stack {cfg : Config} {s t : State} (h : stepWith cfg s = .next t) :
    t.stack = s.stack ∨
    (s.mem.read s.P = cfg.opcode .jsr ∧ cfg.stackDepth ≠ some s.stack.length ∧ t.stack = s.stack ++ [s.P + 2]) ∨
    ∃ v, s.stack = t.stack ++ [v] := by
  obtain ⟨-, ⟨i, hw, -, hexec⟩ | ⟨-, rfl⟩⟩ := stepWith_cases h
  · cases i with
    | jsr target =>
      rcases jsrWith_stack hexec with ⟨hroom, ht⟩ | ⟨-, ht⟩
      · exact .inr (.inl ⟨hw.1, hroom, ht⟩)
      · exact .inl ht
    | rts =>
      rcases rtsWith_stack hexec with ⟨v, hs, -⟩ | ⟨hs, ht⟩
      · exact .inr (.inr ⟨v, hs⟩)
      · exact .inl (ht.trans hs.symm)
    | _ => exact .inl (execWith_keeps_stack (by simp) hexec)
  · exact .inl (s.unknownOpcode_stack _)

/-! ### P (R17) -/

/-- R93: P after an underflow. -/
theorem State.rtsUnderflow_P (s : State) (policy : RtsUnderflowPolicy) :
    (s.rtsUnderflow policy).P = if policy = .continueZeroP then 0 else s.P + 1 := by
  cases policy <;> rfl

/-- R91, R102: P after JSR. -/
theorem jsrWith_P {cfg : Config} {target : Word} {s t : State} (h : jsrWith cfg target s = .next t) :
    t.P = if cfg.stackDepth = some s.stack.length then s.P + 1 else target := by
  rcases jsrWith_cases cfg s target with ⟨hfull, hj⟩ | ⟨hroom, hj⟩
  · rw [hj] at h
    cases h
    rw [if_pos hfull, State.raiseFault_P]
  · rw [hj] at h
    cases h
    rw [if_neg hroom]

/-- Settles O30: each row is the instruction's equation; JSR and RTS by their cases. -/
theorem programCounterAdvanceTable : Obligations.ProgramCounterAdvanceTable := by
  refine ⟨fun cfg i s t h => ?table, fun cfg s t hp hs hu h => ?unknown⟩
  case table =>
    cases i with
    | jsr target => exact jsrWith_P h
    | rts =>
      rw [execWith_rts] at h
      refine ⟨fun older v hs => ?_, fun hempty => ?_⟩
      · rw [rtsWith_append hs] at h
        cases h
        rfl
      · rw [rtsWith_empty hempty] at h
        cases h
        exact s.rtsUnderflow_P _
    | halt | noop | inca | deca | seta | setatom | seti | inci | cmpi | jump | jmpz | bios =>
      simp only [execWith_halt, execWith_noop, execWith_inca, execWith_deca, execWith_seta, execWith_setatom,
        execWith_seti, execWith_inci, execWith_cmpi, execWith_jump, execWith_jmpz, execWith_bios] at h
      cases h
      rfl
  case unknown =>
    rw [stepWith_unknown hs hu, hp, State.unknownOpcode_noop] at h
    cases h
    rfl

/-! ### The output sink (R30) -/

/-- R93: an underflow emits bytes only under a continuing policy. -/
theorem State.rtsUnderflow_out (s : State) (policy : RtsUnderflowPolicy) :
    (s.rtsUnderflow policy).out = s.out ∨
    (policy ≠ .fault ∧ ∃ report, (s.rtsUnderflow policy).out = s.out ++ report) := by
  cases policy with
  | fault => exact .inl rfl
  | continueKeepP | continueZeroP => exact .inr ⟨nofun, _, rfl⟩

/-- R76: an unknown opcode emits nothing. -/
theorem State.unknownOpcode_out (s : State) (policy : UnknownOpcodePolicy) : (s.unknownOpcode policy).out = s.out := by
  cases policy <;> rfl

theorem jsrWith_out {cfg : Config} {target : Word} {s t : State} (h : jsrWith cfg target s = .next t) :
    t.out = s.out := by
  rcases jsrWith_cases cfg s target with ⟨-, hj⟩ | ⟨-, hj⟩ <;>
  · rw [hj] at h
    cases h
    rfl

/-- Everything an instruction can emit. -/
theorem execWith_out {cfg : Config} {i : Instr} {s t : State} (h : execWith cfg i s = .next t) :
    t.out = s.out ∨
    (i = .bios (cfg.ioCode .ioWrite) (cfg.ioCode .targetStdout) ∧ t.out = s.out ++ [BitVec.ofNat 8 s.A.toNat]) ∨
    (i = .rts ∧ s.stack = [] ∧ cfg.rtsUnderflowPolicy ≠ .fault ∧ ∃ report, t.out = s.out ++ report) := by
  cases i with
  | bios d g =>
    rw [execWith_bios_ofNat] at h
    cases h
    by_cases hwrite : d = cfg.ioCode .ioWrite ∧ g = cfg.ioCode .targetStdout
    · obtain ⟨rfl, rfl⟩ := hwrite
      exact .inr (.inl ⟨rfl, if_pos ⟨rfl, rfl⟩⟩)
    · exact .inl (if_neg hwrite)
  | rts =>
    rw [execWith_rts] at h
    rcases rtsWith_cases cfg s with ⟨hempty, hr⟩ | ⟨older, v, -, hr⟩
    · rw [hr] at h
      cases h
      exact (s.rtsUnderflow_out _).imp_right fun hout => .inr ⟨rfl, hempty, hout⟩
    · rw [hr] at h
      cases h
      exact .inl rfl
  | jsr target => exact .inl (jsrWith_out h)
  | halt | noop | inca | deca | seta | setatom | seti | inci | cmpi | jump | jmpz =>
    simp only [execWith_halt, execWith_noop, execWith_inca, execWith_deca, execWith_seta, execWith_setatom,
      execWith_seti, execWith_inci, execWith_cmpi, execWith_jump, execWith_jmpz] at h
    cases h
    exact .inl rfl

/-- Settles O31: `execWith_out`, with the Words that stand at P for the instruction that emitted. -/
theorem outputOnlyFromBiosAndUnderflow : Obligations.OutputOnlyFromBiosAndUnderflow := by
  intro cfg s t h
  obtain ⟨-, ⟨i, hw, -, hexec⟩ | ⟨-, rfl⟩⟩ := stepWith_cases h
  · rcases execWith_out hexec with hout | ⟨rfl, hout⟩ | ⟨rfl, hempty, hpolicy, hout⟩
    · exact .inl hout
    · have hsecond : s.P + 1 + 1 = s.P + 2 := BitVec.add_assoc s.P 1 1
      obtain ⟨hop, hd, hg, -⟩ := hw
      exact .inr (.inl ⟨hop, hd, hsecond ▸ hg, hout⟩)
    · exact .inr (.inr ⟨hw.1, hempty, hpolicy, hout⟩)
  · exact .inl (s.unknownOpcode_out _)

end Sys2Proof.Machine
end

section
/-! SUPPORT. The status after a step (spec/10_state.md R25), the invariant, and what holds along every run
(spec/40_fetch_execute.md R79). -/

namespace Sys2Proof.Machine

/-! ### Halted -/

/-- R80: from a Running core, HALT alone ends Halted. -/
theorem execWith_halted {cfg : Config} {i : Instr} {s t : State} (hs : s.status = .running)
    (h : execWith cfg i s = .next t) (ht : t.status = .halted) : i = .halt := by
  cases i with
  | halt => rfl
  | jsr target =>
    rw [execWith_jsr] at h
    rcases jsrWith_cases cfg s target with ⟨-, hj⟩ | ⟨-, hj⟩
    · rw [hj] at h
      cases h
      cases ht
    · rw [hj] at h
      cases h
      exact absurd (hs.symm.trans ht) nofun
  | rts =>
    rw [execWith_rts] at h
    rcases rtsWith_cases cfg s with ⟨-, hr⟩ | ⟨older, v, -, hr⟩
    · rw [hr] at h
      cases h
      rcases s.rtsUnderflow_status cfg.rtsUnderflowPolicy with hk | hf
      · exact absurd ((hs.symm.trans hk.symm).trans ht) nofun
      · exact absurd (hf.symm.trans ht) nofun
    · rw [hr] at h
      cases h
      exact absurd (hs.symm.trans ht) nofun
  | _ => exact absurd ((hs.symm.trans (execWith_keeps_status (by simp) h).symm).trans ht) nofun

/-- R80: a step that ends Halted ran the HALT at P. -/
theorem stepWith_halted {cfg : Config} {s t : State} (h : stepWith cfg s = .next t) (ht : t.status = .halted) :
    s.mem.read s.P = cfg.opcode .halt ∧ t = { s with P := s.P + 1, status := .halted } := by
  obtain ⟨hs, ⟨i, hw, -, hexec⟩ | ⟨-, rfl⟩⟩ := stepWith_cases h
  · obtain rfl := execWith_halted hs hexec ht
    cases hexec
    exact ⟨hw.1, rfl⟩
  · rcases s.unknownOpcode_status cfg.unknownOpcodePolicy with hk | hf
    · exact absurd ((hs.symm.trans hk.symm).trans ht) nofun
    · exact absurd (hf.symm.trans ht) nofun

/-- R25: no step ends Ready. -/
theorem stepWith_not_ready {cfg : Config} {s t : State} (h : stepWith cfg s = .next t) : t.status ≠ .ready := by
  rcases stepWith_status h with ht | ht | ⟨cause, ht⟩ <;> rw [ht] <;> exact nofun

/-- Settles O32: `stepWith_status` for what the status can be, `stepWith_halted` for Halted, and the step of a HALT for the
converse. -/
theorem statusAfterStep : Obligations.StatusAfterStep := by
  intro cfg s t hc h
  have hs := (stepWith_cases h).1
  refine ⟨hs, stepWith_not_ready h, ⟨fun ht => (stepWith_halted h ht).1, fun hP => ?halts⟩, stepWith_status h⟩
  case halts =>
    rw [stepWith_of_opcode (i := .halt) rfl hc hs hP, execWith_halt] at h
    cases h
    rfl

/-! ### The invariant -/

/-- R102: fault entry keeps what the record's cause says of the state. -/
theorem causeHolds_raiseFault {cfg : Config} {s : State} {word : Word} {cause : FaultCause}
    (h : causeHolds cfg s word cause) : causeHolds cfg (s.raiseFault cause) word cause := by
  cases cause <;> exact h

/-- R22: a push happens only below STACK_DEPTH. -/
theorem stepWith_keeps_stackBounded {cfg : Config} {s t : State} (hI : Inv cfg s) (h : stepWith cfg s = .next t) :
    ∀ n, cfg.stackDepth = some n → t.stack.length ≤ n := by
  intro n hn
  have hbound := hI.stackBounded n hn
  rcases stepWith_stack h with ht | ⟨-, hroom, ht⟩ | ⟨v, hs⟩
  · rwa [ht]
  · have hne : s.stack.length ≠ n := fun he => hroom (he ▸ hn)
    rw [ht, List.length_append, List.length_singleton]
    omega
  · rw [hs, List.length_append] at hbound
    exact Nat.le_of_add_right_le hbound

/-- R23: the entry a JSR at p pushes is p + 2, and no step changes the Word at p. -/
theorem stepWith_keeps_entriesFollowJsr {cfg : Config} {s t : State} (hI : Inv cfg s) (h : stepWith cfg s = .next t) :
    ∀ v ∈ t.stack, t.mem.read (v - 2) = cfg.opcode .jsr := by
  intro v hv
  rw [stepWith_mem h]
  rcases stepWith_stack h with ht | ⟨hjsr, -, ht⟩ | ⟨w, hs⟩
  · exact hI.entriesFollowJsr v (ht ▸ hv)
  · rw [ht] at hv
    rcases List.mem_append.mp hv with hold | hnew
    · exact hI.entriesFollowJsr v hold
    · rw [List.mem_singleton.mp hnew, BitVec.add_sub_cancel, hjsr]
  · exact hI.entriesFollowJsr v (hs ▸ List.mem_append_left _ hv)

/-- Settles O34, field by field: memory and the stack by what a step can do to them, Halted by `stepWith_halted`, the record
by `stepWith_faulted` and `stepWith_raises`. -/
theorem everyStepKeepsInv : Obligations.EveryStepKeepsInv := by
  intro cfg s t hI h
  refine ⟨?memory, stepWith_keeps_stackBounded hI h, stepWith_keeps_entriesFollowJsr hI h, fun ht => ?halted,
    fun cause addr word ht => ?faulted⟩
  case memory => rw [stepWith_mem h, hI.memoryCanonical]
  case halted =>
    obtain ⟨hP, rfl⟩ := stepWith_halted h ht
    rw [BitVec.add_sub_cancel, hP]
  case faulted =>
    obtain ⟨rfl, rfl⟩ := stepWith_faulted h ht
    obtain ⟨rfl, hcause⟩ := stepWith_raises h ht
    exact ⟨rfl, rfl, causeHolds_raiseFault hcause⟩

/-- Settles O35: reset memory and the reset stack are empty, and the reset status is Ready. -/
theorem invHoldsAtReset : Obligations.InvHoldsAtReset :=
  fun _ => ⟨Memory.wf_reset, fun _ _ => Nat.zero_le _, nofun, nofun, nofun⟩

/-! ### Along a run -/

/-- What holds at the start and is kept by every step holds after any number of steps. -/
theorem runLoop_induction {cfg : Config} {p : State → Prop} (hstep : ∀ s t, p s → stepWith cfg s = .next t → p t) (n : Nat)
    {s : State} (hs : p s) : p (runLoop cfg n s) := by
  induction n generalizing s with
  | zero => exact hs
  | succ n ih =>
    cases h : stepWith cfg s with
    | next t =>
      rw [runLoop_succ_of_next h]
      exact ih (hstep s t hs h)
    | fault | refused => simpa only [runLoop, h] using hs

/-- R78: the loop of `n + k` steps is the loop of `k` steps from where the loop of `n` steps is. -/
theorem runLoop_add (cfg : Config) (n k : Nat) (s : State) : runLoop cfg (n + k) s = runLoop cfg k (runLoop cfg n s) := by
  induction n generalizing s with
  | zero => rw [Nat.zero_add, runLoop]
  | succ n ih =>
    by_cases hs : s.status = .running
    · obtain ⟨t, ht⟩ := everyInstructionCompletes.2.2 cfg s hs
      rw [Nat.succ_add, runLoop_succ_of_next ht, runLoop_succ_of_next ht, ih]
    · rw [runLoop_of_not_running hs, runLoop_of_not_running hs, runLoop_of_not_running hs]

/-- R100: at these three parameters no cause's condition can hold. -/
theorem not_causeHolds_of_continuing {cfg : Config} (hunknown : cfg.unknownOpcodePolicy = .noop)
    (hunderflow : cfg.rtsUnderflowPolicy ≠ .fault) (hdepth : cfg.stackDepth = none) (s : State) (word : Word)
    (cause : FaultCause) : ¬ causeHolds cfg s word cause := by
  cases cause with
  | unknownOpcode => exact fun h => absurd (hunknown.symm.trans h.1) nofun
  | stackUnderflow => exact fun h => hunderflow h.1
  | stackOverflow => exact fun h => absurd (hdepth.symm.trans h.2) nofun

/-- Settles O38: a step that ended Faulted would meet its cause's condition (`stepWith_raises`), which cannot hold. -/
theorem continuingMachineNeverFaults : Obligations.ContinuingMachineNeverFaults := by
  intro cfg n s hunknown hunderflow hdepth hs k _
  refine runLoop_induction (p := fun t => ∀ cause addr word, t.status ≠ .faulted cause addr word) ?_ k hs
  intro s t _ h cause addr word ht
  exact not_causeHolds_of_continuing hunknown hunderflow hdepth s _ cause (stepWith_raises h ht).2

/-- Settles O47: no step ends Ready, and the loop stays where it is not Running. -/
theorem runEndsOnlyHaltedOrFaulted : Obligations.RunEndsOnlyHaltedOrFaulted := by
  intro cfg n k s hs
  refine ⟨?notReady, fun hend => ?stays⟩
  case notReady =>
    exact runLoop_induction (p := fun t => t.status ≠ .ready) (fun _ _ _ => stepWith_not_ready) n (by simp [hs])
  case stays => rw [runLoop_add, runLoop_of_not_running hend]

/-! ### A program of HALTs alone -/

/-- R36, R117, R119: a load into the reset machine and Run start the core at P = 0 with the Words from 0 on. -/
theorem run_of_reset_load {s t : State} {ws : List Word} (hload : State.reset.hostLoad ws = .ok s)
    (hrun : s.hostRun = some t) :
    ws.length ≤ 2 ^ 64 ∧ t.P = 0 ∧ t.status = .running ∧ t.mem = State.reset.mem.writeWords 0 ws := by
  obtain ⟨-, hlength, rfl⟩ := State.hostLoad_eq_ok.mp hload
  rw [State.hostRun_ready rfl] at hrun
  cases hrun
  exact ⟨hlength, rfl, rfl, rfl⟩

/-- R80: a run that starts at a HALT ends there after its first step. -/
theorem runLoop_of_halt {cfg : Config} {s : State} (hc : cfg.wf = true) (hs : s.status = .running)
    (hP : s.mem.read s.P = cfg.opcode .halt) (k : Nat) :
    runLoop cfg (k + 1) s = { s with P := s.P + 1, status := .halted } := by
  obtain ⟨-, hends, -⟩ := ((haltStopsPastItself s).2 cfg).2 hc hs hP
  exact hends k

/-- Settles O46: after the load and Run the core is Running at P = 0, where a HALT stands, and its step ends the run. -/
theorem haltOnlyProgramStopsAtOne : Obligations.HaltOnlyProgramStopsAtOne := by
  intro cfg n k s t hc hn hk hload hrun
  obtain ⟨hlength, hzero, hstatus, hmem⟩ := run_of_reset_load hload hrun
  have hfirst : 0 < (List.replicate n (cfg.opcode .halt)).length := by rwa [List.length_replicate]
  have hP : t.mem.read t.P = cfg.opcode .halt := by
    rw [hmem, hzero]
    exact (Memory.read_writeWords_zero_of_lt Memory.wf_reset hlength hfirst).trans (List.getElem_replicate hfirst)
  obtain ⟨k, rfl⟩ := Nat.exists_eq_add_of_le' hk
  have hends := runLoop_of_halt hc hstatus hP k
  rw [hzero] at hends
  exact ⟨congrArg State.status hends, hends⟩

/-! ### Subroutines -/

/-- Straight-line instructions are neither HALT nor one of the stack instructions. -/
theorem mnemonic_not_mem_of_straightLine {i : Instr} (hi : IsStraightLine i) : i.mnemonic ∉ [.halt, .jsr, .rts] := by
  cases i with
  | halt | jsr | rts => exact hi.elim
  | _ => simp

/-- R17: a straight-line instruction leaves P past its own Words. -/
theorem execWith_P_of_straightLine {cfg : Config} {i : Instr} {s t : State} (hi : IsStraightLine i)
    (h : execWith cfg i s = .next t) : t.P = s.P + BitVec.ofNat 64 (encode cfg i).length := by
  have hP := programCounterAdvanceTable.1 cfg i s t h
  cases i with
  | halt | jump | jmpz | jsr | rts => exact hi.elim
  | _ => exact hP

/-- A run over straight-line instructions leaves P past their Words and keeps the stack, the status and memory. -/
theorem runLoop_straightLine {cfg : Config} {body : List Instr} (hc : cfg.wf = true)
    (hbody : ∀ i ∈ body, IsStraightLine i) {s : State} (hs : s.status = .running)
    (h : WordsAt s.mem s.P (encodeAll cfg body)) :
    (runLoop cfg body.length s).P = s.P + BitVec.ofNat 64 (encodeAll cfg body).length ∧
    (runLoop cfg body.length s).stack = s.stack ∧ (runLoop cfg body.length s).status = .running ∧
    (runLoop cfg body.length s).mem = s.mem := by
  induction body generalizing s with
  | nil => exact ⟨(BitVec.add_zero s.P).symm, rfl, hs, rfl⟩
  | cons i body ih =>
    obtain ⟨hi, hrest⟩ := List.forall_mem_cons.mp hbody
    obtain ⟨hwi, hwrest⟩ := (wordsAt_append s.mem s.P (encode cfg i) (encodeAll cfg body)).mp h
    obtain ⟨t, ht⟩ := execWith_completes cfg i s
    have hP := execWith_P_of_straightLine hi ht
    have hkind := mnemonic_not_mem_of_straightLine hi
    have hstack := execWith_keeps_stack (fun hm => hkind (List.mem_cons_of_mem _ hm)) ht
    have hstatus := (execWith_keeps_status hkind ht).trans hs
    have hmem := execWith_mem ht
    obtain ⟨ihP, ihstack, ihstatus, ihmem⟩ := ih hrest hstatus (by rw [hmem, hP]; exact hwrest)
    rw [List.length_cons, runLoop_succ_of_next ((stepWith_of_wordsAt hc hs hwi).trans ht)]
    refine ⟨?_, ihstack.trans hstack, ihstatus, ihmem.trans hmem⟩
    have happend : encodeAll cfg (i :: body) = encode cfg i ++ encodeAll cfg body := rfl
    rw [ihP, hP, happend, List.length_append, BitVec.ofNat_add, BitVec.add_assoc]

/-- Settles O48: the JSR pushes p + 2, the body keeps the stack and memory and ends at the RTS (`runLoop_straightLine`), and
the RTS pops what the JSR pushed. -/
theorem subroutineReturnsAfterItsCall : Obligations.SubroutineReturnsAfterItsCall := by
  intro cfg s t body hc hs hroom hbody hcall hcallee
  obtain ⟨hwbody, hwrts⟩ := (wordsAt_append s.mem t _ _).mp hcallee
  have hjsr := (stepWith_of_wordsAt (i := .jsr t) hc hs hcall).trans (jsrWith_room t hroom)
  obtain ⟨hP, hstack, hstatus, hmem⟩ :=
    runLoop_straightLine (s := { s with P := t, stack := s.stack ++ [s.P + 2] }) hc hbody hs hwbody
  have hop := congrArg₂ Memory.read hmem hP
  have hrts := (stepWith_rts hc hstatus (hop.trans hwrts.1)).trans (rtsWith_append hstack)
  have hsplit : body.length + 2 = body.length + 1 + 1 := rfl
  rw [hsplit, runLoop_succ_of_next hjsr, runLoop_add, runLoop_succ_of_next hrts]
  exact ⟨rfl, rfl, hstatus, hmem⟩

end Sys2Proof.Machine
end

section
/-! SUPPORT. The tokens of a text (spec/30_encoding.md R54), for every notion of white space. -/

namespace Sys2Proof.Machine

section
variable {isSpace : Char → Bool}

theorem flushToken_of_ne_nil {cur : Token} (h : cur ≠ []) : flushToken cur = [cur] := by
  cases cur with
  | nil => exact absurd rfl h
  | cons c cs => rfl

theorem flatten_flushToken (cur : Token) : (flushToken cur).flatten = cur := by
  cases cur with
  | nil => rfl
  | cons c cs => exact List.append_nil _

theorem tokensFrom_cons_of_space {c : Char} (hc : isSpace c = true) (cur : Token) (text : List Char) :
    tokensFrom isSpace cur (c :: text) = flushToken cur ++ tokensFrom isSpace [] text :=
  if_pos hc

theorem tokensFrom_cons_of_not_space {c : Char} (hc : isSpace c = false) (cur : Token) (text : List Char) :
    tokensFrom isSpace cur (c :: text) = tokensFrom isSpace (cur ++ [c]) text :=
  if_neg (by simp [hc])

/-- R54: the tokens joined are the text without its white space. -/
theorem flatten_tokensFrom (cur : Token) (text : List Char) :
    (tokensFrom isSpace cur text).flatten = cur ++ text.filter fun c => !isSpace c := by
  induction text generalizing cur with
  | nil => simp [tokensFrom, flatten_flushToken]
  | cons c text ih =>
    cases hc : isSpace c with
    | true => simp [tokensFrom_cons_of_space hc, flatten_flushToken, ih, hc]
    | false => simp [tokensFrom_cons_of_not_space hc, ih, hc]

theorem run_of_mem_flushToken {cur tok : Token} (hcur : ∀ c ∈ cur, isSpace c = false) (h : tok ∈ flushToken cur) :
    tok ≠ [] ∧ ∀ c ∈ tok, isSpace c = false := by
  cases cur with
  | nil => cases h
  | cons c cs =>
    obtain rfl := List.mem_singleton.mp h
    exact ⟨List.cons_ne_nil c cs, hcur⟩

/-- R54: a token is not empty and holds no white space. -/
theorem run_of_mem_tokensFrom {cur tok : Token} {text : List Char} (hcur : ∀ c ∈ cur, isSpace c = false)
    (h : tok ∈ tokensFrom isSpace cur text) : tok ≠ [] ∧ ∀ c ∈ tok, isSpace c = false := by
  induction text generalizing cur with
  | nil => exact run_of_mem_flushToken hcur h
  | cons c text ih =>
    cases hc : isSpace c with
    | true =>
      rw [tokensFrom_cons_of_space hc] at h
      rcases List.mem_append.mp h with hflush | hrest
      · exact run_of_mem_flushToken hcur hflush
      · exact ih (List.forall_mem_nil _) hrest
    | false =>
      rw [tokensFrom_cons_of_not_space hc] at h
      exact ih (List.forall_mem_append.mpr ⟨hcur, List.forall_mem_singleton.mpr hc⟩) h

/-- R54: white space separates tokens. -/
theorem tokensFrom_append_space {c : Char} (hc : isSpace c = true) (cur : Token) (a b : List Char) :
    tokensFrom isSpace cur (a ++ c :: b) = tokensFrom isSpace cur a ++ tokensFrom isSpace [] b := by
  induction a generalizing cur with
  | nil => exact tokensFrom_cons_of_space hc cur b
  | cons d a ih =>
    cases hd : isSpace d with
    | true => simp [tokensFrom_cons_of_space hd, ih]
    | false => simp [tokensFrom_cons_of_not_space hd, ih]

/-- R54: a run is maximal. -/
theorem tokensFrom_of_no_space (cur : Token) {text : List Char} (h : ∀ c ∈ text, isSpace c = false) :
    tokensFrom isSpace cur text = flushToken (cur ++ text) := by
  induction text generalizing cur with
  | nil => rw [tokensFrom, List.append_nil]
  | cons c text ih =>
    obtain ⟨hc, hrest⟩ := List.forall_mem_cons.mp h
    rw [tokensFrom_cons_of_not_space hc, ih _ hrest, List.append_assoc, List.singleton_append]

end

/-- Settles O53, by the four rules above for the empty run `cur = []`. -/
theorem tokensAreTheNonSpaceRuns : Obligations.TokensAreTheNonSpaceRuns := by
  intro isSpace
  refine ⟨fun text => ⟨flatten_tokensFrom [] text, fun tok => run_of_mem_tokensFrom (List.forall_mem_nil _)⟩,
    fun a b c hc => ?separates, fun text hne htext => ?maximal⟩
  case separates =>
    rw [List.append_assoc, List.singleton_append]
    exact tokensFrom_append_space hc [] a b
  case maximal => exact (tokensFrom_of_no_space [] htext).trans (flushToken_of_ne_nil hne)

end Sys2Proof.Machine
end

section
/-! SUPPORT. The assembler's pass 1 (spec/30_encoding.md R57 to R62): everything it can do with a token, and what every text
that it accepts has been through. -/

namespace Sys2Proof.Machine

/-! ### One token -/

/-- R58: a label definition is a name and a colon. -/
theorem isLabelDefinition_iff {tok : Token} : isLabelDefinition tok = true ↔ ∃ name, tok = name ++ [':'] := by
  rw [isLabelDefinition, beq_iff_eq, List.getLast?_eq_some_iff]

/-- R58 to R62: everything pass 1 can do with a token it accepts: define a new label, note a reference, or emit Words. -/
theorem pass1Token_cases {cfg : Config} {asm : AsmConfig} {tok : Token} {k : Nat} {rest : List Token} {st st' : AsmState}
    (h : pass1Token cfg asm tok k rest st = .ok st') :
    (isLabelDefinition tok = true ∧ st.labels.lookup tok.dropLast = none ∧
      st' = { st with labels := st.labels ++ [(tok.dropLast, st.out.length)] }) ∨
    (IsReference asm tok ∧ st' = { st with out := st.out ++ [0], refs := addReference st.refs tok st.out.length }) ∨
    (isLabelDefinition tok = false ∧ ¬ IsReference asm tok ∧ ∃ ws, st' = { st with out := st.out ++ ws }) := by
  unfold pass1Token at h
  split at h
  · rename_i hlabel
    split at h
    · cases h
    · rename_i hnew
      cases h
      exact .inl ⟨hlabel, hnew, rfl⟩
  · rename_i hlabel
    rw [Bool.not_eq_true] at hlabel
    split at h
    · rename_i m hm
      split at h
      · cases h
      · cases h
        exact .inr (.inr ⟨hlabel, fun ⟨_, hnone, _⟩ => absurd (hm.symm.trans hnone) nofun, _, rfl⟩)
    · rename_i hm
      split at h
      · rename_i code hio
        cases h
        exact .inr (.inr ⟨hlabel, fun ⟨_, _, hnone, _⟩ => absurd (hio.symm.trans hnone) nofun, _, rfl⟩)
      · rename_i hio
        split at h
        · rename_i hletter
          cases h
          exact .inr (.inl ⟨⟨hlabel, hm, hio, hletter⟩, rfl⟩)
        · rename_i hletter
          split at h
          · cases h
            exact .inr (.inr ⟨hlabel, fun ⟨_, _, _, hled⟩ => hletter hled, _, rfl⟩)
          · cases h

/-- R58: a label definition that pass 1 accepts is the first of its name. -/
theorem pass1Token_label_ok {cfg : Config} {asm : AsmConfig} {name : Token} {k : Nat} {rest : List Token}
    {st st' : AsmState} (h : pass1Token cfg asm (name ++ [':']) k rest st = .ok st') :
    st.labels.lookup name = none ∧ st' = { st with labels := st.labels ++ [(name, st.out.length)] } := by
  have hlabel : isLabelDefinition (name ++ [':']) = true := isLabelDefinition_iff.mpr ⟨name, rfl⟩
  rcases pass1Token_cases h with ⟨-, hnew, hst⟩ | ⟨href, -⟩ | ⟨hno, -⟩
  · rw [List.dropLast_concat] at hnew hst
    exact ⟨hnew, hst⟩
  · exact absurd (hlabel.symm.trans href.1) nofun
  · exact absurd (hlabel.symm.trans hno) nofun

/-- R57: a token extends the label table or leaves it. -/
theorem pass1Token_extends_labels {cfg : Config} {asm : AsmConfig} {tok : Token} {k : Nat} {rest : List Token}
    {st st' : AsmState} (h : pass1Token cfg asm tok k rest st = .ok st') : st.labels <+: st'.labels := by
  rcases pass1Token_cases h with ⟨-, -, rfl⟩ | ⟨-, rfl⟩ | ⟨-, -, ws, rfl⟩
  · exact ⟨_, rfl⟩
  · exact ⟨[], List.append_nil _⟩
  · exact ⟨[], List.append_nil _⟩

/-! ### The tokens in order -/

/-- R58: pass 1 accepts a text when it accepts its first token and then the others. -/
theorem pass1_cons_eq_ok {cfg : Config} {asm : AsmConfig} {tok : Token} {rest : List Token} {k : Nat} {st st' : AsmState} :
    pass1 cfg asm (tok :: rest) k st = .ok st' ↔
      ∃ st₁, pass1Token cfg asm tok k rest st = .ok st₁ ∧ pass1 cfg asm rest (k + 1) st₁ = .ok st' := by
  cases h : pass1Token cfg asm tok k rest st <;> simp [pass1, h]

/-- Pass 1 goes on from the state that a token it accepts leaves. -/
theorem pass1_cons_of_ok {cfg : Config} {asm : AsmConfig} {tok : Token} {rest : List Token} {k : Nat} {st st₁ : AsmState}
    (h : pass1Token cfg asm tok k rest st = .ok st₁) :
    pass1 cfg asm (tok :: rest) k st = pass1 cfg asm rest (k + 1) st₁ := by
  rw [pass1, h]

/-- Of a text that pass 1 accepts it accepts every tail, from a state whose label table extends the one before. -/
theorem pass1_append_ok {cfg : Config} {asm : AsmConfig} {a b : List Token} {k : Nat} {st st' : AsmState}
    (h : pass1 cfg asm (a ++ b) k st = .ok st') :
    ∃ st₁, pass1 cfg asm b (k + a.length) st₁ = .ok st' ∧ st.labels <+: st₁.labels := by
  induction a generalizing k st with
  | nil => exact ⟨st, h, [], List.append_nil _⟩
  | cons tok a ih =>
    obtain ⟨st₁, htok, hrest⟩ := pass1_cons_eq_ok.mp h
    obtain ⟨st₂, htail, hextends⟩ := ih hrest
    refine ⟨st₂, ?_, (pass1Token_extends_labels htok).trans hextends⟩
    rwa [List.length_cons, Nat.add_comm a.length, ← Nat.add_assoc]

/-- R65: assembly returns Words exactly when both passes accept. -/
theorem assembleTokens_eq_ok {cfg : Config} {asm : AsmConfig} {toks : List Token} {ws : List Word} :
    assembleTokens cfg asm toks = .ok ws ↔
      ∃ st, pass1 cfg asm toks 0 AsmState.start = .ok st ∧ pass2 st.labels st.refs st.out = .ok ws := by
  cases h : pass1 cfg asm toks 0 AsmState.start <;> simp [assembleTokens, h]

/-! ### Duplicate labels (R58) -/

/-- A name in a table is in every extension of it. -/
theorem lookup_ne_none_of_extends {labels labels' : List (Token × Nat)} {name : Token} {a : Nat}
    (h : labels ++ [(name, a)] <+: labels') : labels'.lookup name ≠ none := by
  obtain ⟨more, rfl⟩ := h
  simp [List.lookup_append]

/-- Settles O56: after the first definition the name is in the label table and stays there, so pass 1 does not accept the
second. -/
theorem duplicateLabelAborts : Obligations.DuplicateLabelAborts := by
  intro cfg asm name a b c
  cases h : assembleTokens cfg asm (a ++ [name ++ [':']] ++ b ++ [name ++ [':']] ++ c) with
  | error e => exact ⟨e, rfl⟩
  | ok ws =>
    obtain ⟨st, hpass1, -⟩ := assembleTokens_eq_ok.mp h
    simp only [List.append_assoc, List.singleton_append] at hpass1
    obtain ⟨st₁, hfirst, -⟩ := pass1_append_ok hpass1
    obtain ⟨st₂, hdefine, hbetween⟩ := pass1_cons_eq_ok.mp hfirst
    obtain ⟨st₃, hsecond, hextends⟩ := pass1_append_ok hbetween
    obtain ⟨st₄, hagain, -⟩ := pass1_cons_eq_ok.mp hsecond
    obtain ⟨-, rfl⟩ := pass1Token_label_ok hdefine
    exact absurd (pass1Token_label_ok hagain).1 (lookup_ne_none_of_extends hextends)

/-! ### Defined references (R63) -/

/-- R57: a reference is entered under its name, and the table keeps the names it had. -/
theorem mem_keys_addReference {refs : List (Token × List Nat)} {name name' : Token} {k : Nat} :
    name' ∈ (addReference refs name k).map Prod.fst ↔ name' = name ∨ name' ∈ refs.map Prod.fst := by
  induction refs with
  | nil => simp [addReference]
  | cons r refs ih =>
    obtain ⟨n, ks⟩ := r
    by_cases hn : n = name
    · simp [addReference, hn]
    · simp only [addReference, if_neg hn, List.map_cons, List.mem_cons, ih]
      exact or_left_comm

/-- R57: a token keeps the names in the reference table, and a reference is one of them afterwards. -/
theorem pass1Token_refs {cfg : Config} {asm : AsmConfig} {tok : Token} {k : Nat} {rest : List Token} {st st' : AsmState}
    (h : pass1Token cfg asm tok k rest st = .ok st') :
    st.refs.map Prod.fst ⊆ st'.refs.map Prod.fst ∧ (IsReference asm tok → tok ∈ st'.refs.map Prod.fst) := by
  rcases pass1Token_cases h with ⟨hlabel, -, rfl⟩ | ⟨-, rfl⟩ | ⟨-, hno, ws, rfl⟩
  · exact ⟨List.Subset.refl _, fun href => absurd (hlabel.symm.trans href.1) nofun⟩
  · exact ⟨fun _ hmem => mem_keys_addReference.mpr (.inr hmem), fun _ => mem_keys_addReference.mpr (.inl rfl)⟩
  · exact ⟨List.Subset.refl _, fun href => absurd href hno⟩

/-- After pass 1 every reference of the text is in the reference table. -/
theorem pass1_refs {cfg : Config} {asm : AsmConfig} {toks : List Token} {k : Nat} {st st' : AsmState}
    (h : pass1 cfg asm toks k st = .ok st') :
    st.refs.map Prod.fst ⊆ st'.refs.map Prod.fst ∧
    ∀ tok ∈ toks, IsReference asm tok → tok ∈ st'.refs.map Prod.fst := by
  induction toks generalizing k st with
  | nil =>
    cases h
    exact ⟨List.Subset.refl _, List.forall_mem_nil _⟩
  | cons tok toks ih =>
    obtain ⟨st₁, htok, hrest⟩ := pass1_cons_eq_ok.mp h
    obtain ⟨hkeeps₁, htok₁⟩ := pass1Token_refs htok
    obtain ⟨hkeeps, hall⟩ := ih hrest
    exact ⟨List.Subset.trans hkeeps₁ hkeeps, List.forall_mem_cons.mpr ⟨fun href => hkeeps (htok₁ href), hall⟩⟩

/-- R57: a label that a token adds is the one it defines. -/
theorem pass1Token_labels {cfg : Config} {asm : AsmConfig} {tok : Token} {k : Nat} {rest : List Token} {st st' : AsmState}
    (h : pass1Token cfg asm tok k rest st = .ok st') : ∀ p ∈ st'.labels, p ∈ st.labels ∨ p.1 ++ [':'] = tok := by
  intro p hp
  rcases pass1Token_cases h with ⟨hlabel, -, rfl⟩ | ⟨-, rfl⟩ | ⟨-, -, ws, rfl⟩
  · obtain ⟨name, rfl⟩ := isLabelDefinition_iff.mp hlabel
    rw [List.dropLast_concat] at hp
    exact (List.mem_append.mp hp).imp_right fun hnew => by rw [List.mem_singleton.mp hnew]
  · exact .inl hp
  · exact .inl hp

/-- After pass 1 every label that it added has a definition in the text. -/
theorem pass1_labels {cfg : Config} {asm : AsmConfig} {toks : List Token} {k : Nat} {st st' : AsmState}
    (h : pass1 cfg asm toks k st = .ok st') : ∀ p ∈ st'.labels, p ∈ st.labels ∨ p.1 ++ [':'] ∈ toks := by
  induction toks generalizing k st with
  | nil =>
    cases h
    exact fun p => .inl
  | cons tok toks ih =>
    obtain ⟨st₁, htok, hrest⟩ := pass1_cons_eq_ok.mp h
    intro p hp
    rcases ih hrest p hp with hp₁ | hmem
    · exact (pass1Token_labels htok p hp₁).imp_right fun he => List.mem_cons.mpr (.inl he)
    · exact .inr (List.mem_cons_of_mem _ hmem)

/-- R63: pass 2 returns Words only when the label table has every name of the reference table. -/
theorem pass2_ok {labels : List (Token × Nat)} {refs : List (Token × List Nat)} {out ws : List Word}
    (h : pass2 labels refs out = .ok ws) : ∀ name ∈ refs.map Prod.fst, ∃ p ∈ labels, p.1 = name := by
  induction refs generalizing out with
  | nil => exact List.forall_mem_nil _
  | cons r refs ih =>
    obtain ⟨name, ks⟩ := r
    cases hl : labels.lookup name with
    | none => simp [pass2, hl] at h
    | some a =>
      simp only [pass2, hl] at h
      refine List.forall_mem_cons.mpr ⟨?_, ih h⟩
      obtain ⟨p, hp, hname⟩ := List.lookup_isSome_iff.mp (by rw [hl]; rfl)
      exact ⟨p, hp, (beq_iff_eq.mp hname).symm⟩

/-- Settles O57: a reference of the text is in the reference table after pass 1, so pass 2 found its name in the label table,
and the label table holds only names defined in the text. -/
theorem assembledReferencesAreDefined : Obligations.AssembledReferencesAreDefined := by
  intro cfg asm toks ws h tok htok href
  obtain ⟨st, hpass1, hpass2⟩ := assembleTokens_eq_ok.mp h
  obtain ⟨p, hp, rfl⟩ := pass2_ok hpass2 tok ((pass1_refs hpass1).2 tok htok href)
  exact (pass1_labels hpass1 p hp).resolve_left List.not_mem_nil

end Sys2Proof.Machine
end

section
/-! SUPPORT. Instructions as assembly text (spec/30_encoding.md R55, R61 to R64): decimal literals, the tokens of an instruction,
and a forward reference. -/

namespace Sys2Proof.Machine

/-! ### Decimal literals (R55, R62) -/

theorem mem_decimalDigits_of_isDigit {c : Char} (h : c.isDigit = true) : c ∈ decimalDigits := by
  obtain ⟨hlow, hhigh⟩ := Char.isDigit_iff_toNat.mp h
  rw [← Char.ofNat_toNat c]
  generalize c.toNat = n at hlow hhigh
  change 48 ≤ n at hlow
  change n ≤ 57 at hhigh
  interval_cases n <;> decide

/-- What `AsmConfig.wf` says of one decimal digit. -/
theorem AsmConfig.wf_digit {asm : AsmConfig} (h : asm.wf = true) {d : Char} (hd : d ∈ decimalDigits) :
    asm.isLetter d = false ∧ d ≠ asm.dataMarker ∧ ∀ e ∈ asm.ioSymbols, e.1.head? ≠ some d := by
  have hdigit := List.all_eq_true.mp h d hd
  simp only [Bool.and_eq_true, Bool.not_eq_true', bne_iff_ne, List.all_eq_true] at hdigit
  obtain ⟨⟨⟨hletter, -⟩, hmarker⟩, hio⟩ := hdigit
  exact ⟨hletter, hmarker, hio⟩

theorem isDigit_of_mem_decimalToken {w : Word} {c : Char} (h : c ∈ decimalToken w) : c.isDigit = true :=
  Nat.isDigit_of_mem_toDigits (by decide) (by decide) h

/-- A decimal literal begins with a digit. -/
theorem exists_decimalToken_eq_cons (w : Word) : ∃ c cs, decimalToken w = c :: cs ∧ c ∈ decimalDigits := by
  obtain ⟨c, cs, hcons⟩ : ∃ c cs, decimalToken w = c :: cs := List.exists_cons_of_ne_nil Nat.toDigits_ne_nil
  have hmem : c ∈ decimalToken w := hcons ▸ List.mem_cons_self
  exact ⟨c, cs, hcons, mem_decimalDigits_of_isDigit (isDigit_of_mem_decimalToken hmem)⟩

theorem decimalValue_decimalToken (w : Word) : decimalValue (decimalToken w) = w.toNat :=
  Nat.ofDigitChars_eq_foldl.symm.trans Nat.ofDigitChars_ten_toDigits

/-- Every spelling has a character that is no digit. -/
theorem all_isDigit_spelling (m : Mnemonic) : (spelling m).all Char.isDigit = false := by
  cases m <;> rfl

theorem isLabelDefinition_decimalToken (w : Word) : isLabelDefinition (decimalToken w) = false := by
  rw [← Bool.not_eq_true, isLabelDefinition_iff]
  rintro ⟨name, hname⟩
  have hcolon : ':' ∈ decimalToken w := hname ▸ List.mem_append_right name (List.mem_singleton_self _)
  exact absurd (isDigit_of_mem_decimalToken hcolon) (by decide)

theorem mnemonicOfToken_decimalToken (w : Word) : mnemonicOfToken (decimalToken w) = none := by
  rw [mnemonicOfToken, List.find?_eq_none]
  intro m _ hm
  have hall : (spelling m).all Char.isDigit = true := by
    rw [beq_iff_eq.mp hm]
    exact List.all_eq_true.mpr fun c => isDigit_of_mem_decimalToken
  exact absurd ((all_isDigit_spelling m).symm.trans hall) nofun

theorem isBadOperand_decimalToken (w : Word) : isBadOperand (decimalToken w) = false := by
  rw [isBadOperand, mnemonicOfToken_decimalToken, isLabelDefinition_decimalToken]
  rfl

theorem ioCodeOfToken_decimalToken {asm : AsmConfig} (h : asm.wf = true) (w : Word) :
    ioCodeOfToken asm (decimalToken w) = none := by
  obtain ⟨c, cs, hcons, hc⟩ := exists_decimalToken_eq_cons w
  obtain ⟨-, -, hio⟩ := AsmConfig.wf_digit h hc
  refine List.lookup_eq_none_iff.mpr fun e he => bne_iff_ne.mpr fun htok => hio e he ?_
  rw [← htok, hcons, List.head?_cons]

theorem isLetterLed_decimalToken {asm : AsmConfig} (h : asm.wf = true) (w : Word) :
    isLetterLed asm (decimalToken w) = false := by
  obtain ⟨c, cs, hcons, hc⟩ := exists_decimalToken_eq_cons w
  rw [hcons]
  exact (AsmConfig.wf_digit h hc).1

theorem stripMarker_decimalToken {asm : AsmConfig} (h : asm.wf = true) (w : Word) :
    stripMarker asm (decimalToken w) = decimalToken w := by
  obtain ⟨c, cs, hcons, hc⟩ := exists_decimalToken_eq_cons w
  rw [hcons]
  exact if_neg (AsmConfig.wf_digit h hc).2.1

/-- R62: a run of digits whose value is a Word is that Word. -/
theorem dataWords_of_digits {asm : AsmConfig} {tok : Token} (hstrip : stripMarker asm tok = tok) (hne : tok ≠ [])
    (hdigits : ∀ c ∈ tok, c.isDigit = true) (hvalue : decimalValue tok < 2 ^ 64) :
    dataWords asm tok = some [BitVec.ofNat 64 (decimalValue tok)] := by
  have hall : tok.all Char.isDigit = true := List.all_eq_true.mpr hdigits
  rw [dataWords, hstrip]
  cases tok with
  | nil => exact absurd rfl hne
  | cons c cs => simp only [hdigits c List.mem_cons_self, hall, hvalue, decide_true, Bool.and_self, if_true]

theorem dataWords_decimalToken {asm : AsmConfig} (h : asm.wf = true) (w : Word) :
    dataWords asm (decimalToken w) = some [w] := by
  have hvalue := decimalValue_decimalToken w
  rw [dataWords_of_digits (stripMarker_decimalToken h w) Nat.toDigits_ne_nil (fun c => isDigit_of_mem_decimalToken)
    (hvalue ▸ w.isLt), hvalue, BitVec.ofNat_toNat, BitVec.setWidth_eq]

/-! ### What pass 1 does with each token -/

/-- Words put out (R57). -/
def AsmState.emit (st : AsmState) (ws : List Word) : AsmState := { st with out := st.out ++ ws }

@[simp] theorem AsmState.emit_out (st : AsmState) (ws : List Word) : (st.emit ws).out = st.out ++ ws := rfl

theorem AsmState.emit_nil (st : AsmState) : st.emit [] = st := by
  simp [AsmState.emit]

theorem AsmState.emit_emit (st : AsmState) (a b : List Word) : (st.emit a).emit b = st.emit (a ++ b) := by
  simp [AsmState.emit]

section
variable {cfg : Config} {asm : AsmConfig} {k : Nat} {rest : List Token} {st : AsmState}

theorem isLabelDefinition_spelling (m : Mnemonic) : isLabelDefinition (spelling m) = false := by
  cases m <;> rfl

theorem mnemonicOfToken_spelling (m : Mnemonic) : mnemonicOfToken (spelling m) = some m := by
  cases m <;> rfl

/-- R59: a mnemonic whose operand slots hold no bad operand puts out its opcode Word. -/
theorem pass1Token_spelling {m : Mnemonic} (h : checkOperands m (spelling m) k rest = .ok ()) :
    pass1Token cfg asm (spelling m) k rest st = .ok (st.emit [cfg.opcode m]) := by
  simp [pass1Token, isLabelDefinition_spelling, mnemonicOfToken_spelling, h, AsmState.emit]

/-- R61: a reference puts out 0, to be patched. -/
theorem pass1Token_reference {tok : Token} (h : IsReference asm tok) :
    pass1Token cfg asm tok k rest st =
      .ok { st with out := st.out ++ [0], refs := addReference st.refs tok st.out.length } := by
  obtain ⟨hlabel, hm, hio, hletter⟩ := h
  simp [pass1Token, hlabel, hm, hio, hletter]

/-- R58: a label takes the number of Words put out before it. -/
theorem pass1Token_label {name : Token} (h : st.labels.lookup name = none) :
    pass1Token cfg asm (name ++ [':']) k rest st =
      .ok { st with labels := st.labels ++ [(name, st.out.length)] } := by
  simp [pass1Token, isLabelDefinition_iff.mpr ⟨name, rfl⟩, h]

/-- R62: a decimal literal puts out its Word. -/
theorem pass1Token_decimalToken (h : asm.wf = true) (w : Word) :
    pass1Token cfg asm (decimalToken w) k rest st = .ok (st.emit [w]) := by
  simp [pass1Token, isLabelDefinition_decimalToken, mnemonicOfToken_decimalToken, ioCodeOfToken_decimalToken h,
    isLetterLed_decimalToken h, dataWords_decimalToken h, AsmState.emit]

theorem firstBadOperand_eq_none {toks : List Token} (h : ∀ t ∈ toks, isBadOperand t = false) :
    firstBadOperand toks k = none := by
  induction toks generalizing k with
  | nil => rfl
  | cons t toks ih =>
    obtain ⟨ht, htoks⟩ := List.forall_mem_cons.mp h
    simp [firstBadOperand, ht, ih htoks]

/-- R59: the check passes when as many good operands follow as the mnemonic needs. -/
theorem checkOperands_ok {m : Mnemonic} {tok : Token} {ops : List Token} (hlength : ops.length = m.operandCount)
    (hops : ∀ t ∈ ops, isBadOperand t = false) : checkOperands m tok k (ops ++ rest) = .ok () := by
  have hslots : (ops ++ rest).take m.operandCount = ops := List.take_left' hlength
  have henough : ¬ (ops ++ rest).length < m.operandCount := by
    rw [List.length_append]
    omega
  simp only [checkOperands, if_neg henough, hslots, firstBadOperand_eq_none hops]

/-! ### Lists of instructions (R55, R67) -/

theorem pass1_decimalTokens (h : asm.wf = true) (ws : List Word) :
    pass1 cfg asm (ws.map decimalToken ++ rest) k st = pass1 cfg asm rest (k + ws.length) (st.emit ws) := by
  induction ws generalizing k st with
  | nil => exact congrArg (pass1 cfg asm rest k) st.emit_nil.symm
  | cons w ws ih =>
    rw [List.map_cons, List.cons_append, pass1_cons_of_ok (pass1Token_decimalToken h w), ih, AsmState.emit_emit,
      List.length_cons, Nat.add_right_comm, ← Nat.add_assoc]
    rfl

/-- The tokens of an instruction put out its encoding. -/
theorem pass1_instrTokens (h : asm.wf = true) (i : Instr) :
    pass1 cfg asm (instrTokens i ++ rest) k st =
      pass1 cfg asm rest (k + (instrTokens i).length) (st.emit (encode cfg i)) := by
  have hcheck : checkOperands i.mnemonic (spelling i.mnemonic) k (i.operands.map decimalToken ++ rest) = .ok () := by
    refine checkOperands_ok (by rw [List.length_map, Instr.length_operands]) ?_
    exact List.forall_mem_map.mpr fun w _ => isBadOperand_decimalToken w
  rw [instrTokens, List.cons_append, pass1_cons_of_ok (pass1Token_spelling hcheck), pass1_decimalTokens h,
    AsmState.emit_emit, List.length_cons, List.length_map, Nat.add_assoc, Nat.add_comm 1]
  rfl

theorem pass1_flatMap_instrTokens (h : asm.wf = true) (is : List Instr) :
    pass1 cfg asm (is.flatMap instrTokens ++ rest) k st =
      pass1 cfg asm rest (k + (is.flatMap instrTokens).length) (st.emit (encodeAll cfg is)) := by
  induction is generalizing k st with
  | nil => exact congrArg (pass1 cfg asm rest k) st.emit_nil.symm
  | cons i is ih =>
    rw [List.flatMap_cons, List.append_assoc, pass1_instrTokens h, ih, AsmState.emit_emit, List.length_append,
      Nat.add_assoc]
    rfl

end

/-- Settles O54: pass 1 puts out the encodings one after the other, and there is nothing to patch. -/
theorem assembledInstructionsAreTheirEncodings : Obligations.AssembledInstructionsAreTheirEncodings := by
  intro cfg asm is h
  have hpass1 := pass1_flatMap_instrTokens (cfg := cfg) (rest := []) (k := 0) (st := AsmState.start) h is
  rw [List.append_nil] at hpass1
  exact assembleTokens_eq_ok.mpr ⟨_, hpass1, rfl⟩

/-! ### A forward reference (R61, R63, R64) -/

/-- R59, R61: a reference may stand in an operand slot. -/
theorem isBadOperand_of_reference {asm : AsmConfig} {tok : Token} (h : IsReference asm tok) :
    isBadOperand tok = false := by
  obtain ⟨hlabel, hm, -⟩ := h
  simp [isBadOperand, hlabel, hm]

/-- R55, R61: JUMP and a reference put out JUMP's opcode Word and a 0 at position 1 to be patched. -/
theorem pass1_jump_reference {cfg : Config} {asm : AsmConfig} {name : Token} {rest : List Token}
    (h : IsReference asm name) :
    pass1 cfg asm (spelling .jump :: name :: rest) 0 AsmState.start =
      pass1 cfg asm rest 2 { out := [cfg.opcode .jump, 0], labels := [], refs := [(name, [1])] } := by
  have hcheck : checkOperands .jump (spelling .jump) 0 ([name] ++ rest) = .ok () :=
    checkOperands_ok rfl (List.forall_mem_singleton.mpr (isBadOperand_of_reference h))
  exact (pass1_cons_of_ok (pass1Token_spelling hcheck)).trans (pass1_cons_of_ok (pass1Token_reference h))

/-- R64: pass 1 over JUMP NAME, instructions, NAME: and instructions gives NAME the number of Words before it. -/
theorem pass1_forward_reference {cfg : Config} {asm : AsmConfig} {name : Token} (hasm : asm.wf = true)
    (hname : IsReference asm name) (before after : List Instr) :
    pass1 cfg asm
      (spelling .jump :: name :: (before.flatMap instrTokens ++ (name ++ [':']) :: after.flatMap instrTokens)) 0
      AsmState.start =
    .ok { out := [cfg.opcode .jump, 0] ++ encodeAll cfg before ++ encodeAll cfg after,
          labels := [(name, 2 + (encodeAll cfg before).length)], refs := [(name, [1])] } := by
  have hposition : ([cfg.opcode .jump, 0] ++ encodeAll cfg before).length = 2 + (encodeAll cfg before).length :=
    List.length_append
  rw [pass1_jump_reference hname, pass1_flatMap_instrTokens hasm, pass1_cons_of_ok (pass1Token_label rfl),
    ← List.append_nil (after.flatMap instrTokens), pass1_flatMap_instrTokens hasm, AsmState.emit_out, hposition]
  rfl

/-- R63: pass 2 over one reference patches its positions with the label's. -/
theorem pass2_singleton (name : Token) (a : Nat) (ks : List Nat) (out : List Word) :
    pass2 [(name, a)] [(name, ks)] out = .ok (patchPositions (BitVec.ofNat 64 a) ks out) := by
  simp [pass2]

/-- Settles O55: pass 1 (`pass1_forward_reference`) leaves one reference, at position 1, which pass 2 patches. -/
theorem forwardReferenceIsLabelPosition : Obligations.ForwardReferenceIsLabelPosition := by
  intro cfg asm name before after hasm hname
  rw [assembleTokens_eq_ok]
  simp only [List.append_assoc, List.cons_append, List.nil_append]
  exact ⟨_, pass1_forward_reference hasm hname before after, pass2_singleton ..⟩

end Sys2Proof.Machine
end
